-- ==== Sys2Proof/Word.lean ====
section
/-! DEFINITION. The word of the machine and the widths the spec names (00_scope R5, R7, R8). -/

namespace Sys2Proof

/-- A word: "a 16-bit unsigned integer, the unit of memory and register storage" (00_scope R5, R12). It is also
an address: addresses are 16-bit word addresses (20_memory R60). `+` on it wraps (00_scope R8). -/
abbrev Word := BitVec 16

/-- A general-purpose register as an instruction names it: the closed 3-bit selector, value `i` names `Ri`
(30_encoding R84). No value of it lies outside the register file. -/
abbrev RegIdx := BitVec 3

/-- One byte of the loader's image file (70_reset R232). The core itself has no bytes (20_memory R65). -/
abbrev Byte := BitVec 8

end Sys2Proof
end

