-- ==== Sys2Proof/Syntax.lean ====
section
/-! DEFINITION. The instructions: one constructor per row of spec/opcode_table.json, with the fields of
30_encoding R84, R85, R86 and R88 as bit vectors of the fields' own widths. Ignored bits (R87) are no operands. -/

namespace Sys2Proof

/-- The instruction set: sixteen opcodes, nineteen forms (30_encoding R82, R88). -/
inductive Instr where
  /-- BR (42_control R171): `nzp` is `ir[11:9]`, n the most significant bit. -/
  | br (nzp : BitVec 3) (off9 : BitVec 9)
  /-- ADD, register mode (40_alu R121). -/
  | addReg (dr sr1 sr2 : RegIdx)
  /-- ADD, immediate mode (40_alu R122). -/
  | addImm (dr sr1 : RegIdx) (imm5 : BitVec 5)
  /-- LD (41_load_store R143). -/
  | ld (dr : RegIdx) (off9 : BitVec 9)
  /-- ST (41_load_store R144). -/
  | st (sr : RegIdx) (off9 : BitVec 9)
  /-- JSR, opcode 0100 with bit 11 = 1 (42_control R172). -/
  | jsr (off11 : BitVec 11)
  /-- JSRR, opcode 0100 with bit 11 = 0 (42_control R173). -/
  | jsrr (base : RegIdx)
  /-- AND, register mode (40_alu R123). -/
  | andReg (dr sr1 sr2 : RegIdx)
  /-- AND, immediate mode (40_alu R124). -/
  | andImm (dr sr1 : RegIdx) (imm5 : BitVec 5)
  /-- LDR (41_load_store R145). -/
  | ldr (dr base : RegIdx) (off6 : BitVec 6)
  /-- STR (41_load_store R146): the 9-bit offset of the default setting is `ir[8:0]`, that is `base` followed by `off6`. -/
  | str (sr base : RegIdx) (off6 : BitVec 6)
  /-- RTI (43_system R190). -/
  | rti
  /-- NOT (40_alu R125). -/
  | not (dr sr : RegIdx)
  /-- LDI (41_load_store R147). -/
  | ldi (dr : RegIdx) (off9 : BitVec 9)
  /-- STI (41_load_store R148). -/
  | sti (sr : RegIdx) (off9 : BitVec 9)
  /-- JMP (42_control R174); RET is JMP R7 (30_encoding R96). -/
  | jmp (base : RegIdx)
  /-- RESERVED, opcode 1101 (43_system R191). -/
  | reserved
  /-- LEA (41_load_store R149). -/
  | lea (dr : RegIdx) (off9 : BitVec 9)
  /-- TRAP (42_control R175). -/
  | trap (vect8 : BitVec 8)
  deriving DecidableEq, Repr

end Sys2Proof
end

