-- ==== Sys2Proof/WellFormed.lean ====
section
/-! DEFINITION. Which instructions are well formed. Every operand range of 30_encoding R84 and R85 is the width of its
field's type, so the only form to refuse is the reserved one. -/

namespace Sys2Proof

/-- The one check: the instruction is not of the reserved opcode, "the only reserved encoding space"
(30_encoding R89). -/
def Instr.notReserved : Instr → Bool
  | .br _ _ => true
  | .addReg _ _ _ => true
  | .addImm _ _ _ => true
  | .ld _ _ => true
  | .st _ _ => true
  | .jsr _ => true
  | .jsrr _ => true
  | .andReg _ _ _ => true
  | .andImm _ _ _ => true
  | .ldr _ _ _ => true
  | .str _ _ _ => true
  | .rti => true
  | .not _ _ => true
  | .ldi _ _ => true
  | .sti _ _ => true
  | .jmp _ => true
  | .reserved => false
  | .lea _ _ => true
  | .trap _ => true

/-- A well-formed instruction: a defined one (log 25). RESERVED decodes and has a meaning all the same: it is
the execution of it that fails (30_encoding R83). -/
def Instr.wellFormed (i : Instr) : Bool := i.notReserved

end Sys2Proof
end

