-- ==== Sys2Proof/Decode.lean ====
section
/-! DEFINITION. The decoder (30_encoding R81 to R88), total on every word and never failing (R83), and an encoder
written from the same format table (R88). -/

namespace Sys2Proof

/-! ## The fields of an instruction word (30_encoding R84, R85, R86) -/

/-- The opcode, `ir[15:12]` (R81). -/
def fieldOpcode (ir : Word) : BitVec 4 := ir.extractLsb' 12 4

/-- DR of the loads and operates, SR of the stores, the condition bits of BR: `ir[11:9]` (R84, R86). -/
def fieldHigh3 (ir : Word) : BitVec 3 := ir.extractLsb' 9 3

/-- SR1, BaseR, SR of NOT: `ir[8:6]` (R84). -/
def fieldMid3 (ir : Word) : BitVec 3 := ir.extractLsb' 6 3

/-- SR2: `ir[2:0]` (R84). -/
def fieldLow3 (ir : Word) : BitVec 3 := ir.extractLsb' 0 3

/-- imm5: `ir[4:0]` (R85). -/
def fieldImm5 (ir : Word) : BitVec 5 := ir.extractLsb' 0 5

/-- offset6: `ir[5:0]` (R85). -/
def fieldOff6 (ir : Word) : BitVec 6 := ir.extractLsb' 0 6

/-- trapvect8: `ir[7:0]` (R85). -/
def fieldVect8 (ir : Word) : BitVec 8 := ir.extractLsb' 0 8

/-- PCoffset9: `ir[8:0]` (R85). -/
def fieldOff9 (ir : Word) : BitVec 9 := ir.extractLsb' 0 9

/-- PCoffset11: `ir[10:0]` (R85). -/
def fieldOff11 (ir : Word) : BitVec 11 := ir.extractLsb' 0 11

/-! ## The opcode map (30_encoding R82) -/

/-- The sixteen variants, in the source's order (R82). -/
inductive Opcode where
  | br | add | ld | st | jsr | and | ldr | str | rti | not | ldi | sti | jmp | reserved | lea | trap
  deriving DecidableEq, Repr

/-- The map of R82: a variant's code is its position in this list, counting from 0. -/
def opcodeMap : Vector Opcode 16 :=
  #v[.br, .add, .ld, .st, .jsr, .and, .ldr, .str, .rti, .not, .ldi, .sti, .jmp, .reserved, .lea, .trap]

/-- The variant of a 4-bit code; every code has one (R82, R83). -/
def opcodeOf (code : BitVec 4) : Opcode := opcodeMap[code.toNat]'code.isLt

/-- The decoder: every word is exactly one instruction (R83), whatever its ignored bits hold (R87). -/
def decode (ir : Word) : Instr :=
  match opcodeOf (fieldOpcode ir) with
  | .br => .br (fieldHigh3 ir) (fieldOff9 ir)
  | .add =>
    if ir.getLsbD 5 then .addImm (fieldHigh3 ir) (fieldMid3 ir) (fieldImm5 ir)
    else .addReg (fieldHigh3 ir) (fieldMid3 ir) (fieldLow3 ir)
  | .ld => .ld (fieldHigh3 ir) (fieldOff9 ir)
  | .st => .st (fieldHigh3 ir) (fieldOff9 ir)
  | .jsr => if ir.getLsbD 11 then .jsr (fieldOff11 ir) else .jsrr (fieldMid3 ir)
  | .and =>
    if ir.getLsbD 5 then .andImm (fieldHigh3 ir) (fieldMid3 ir) (fieldImm5 ir)
    else .andReg (fieldHigh3 ir) (fieldMid3 ir) (fieldLow3 ir)
  | .ldr => .ldr (fieldHigh3 ir) (fieldMid3 ir) (fieldOff6 ir)
  | .str => .str (fieldHigh3 ir) (fieldMid3 ir) (fieldOff6 ir)
  | .rti => .rti
  | .not => .not (fieldHigh3 ir) (fieldMid3 ir)
  | .ldi => .ldi (fieldHigh3 ir) (fieldOff9 ir)
  | .sti => .sti (fieldHigh3 ir) (fieldOff9 ir)
  | .jmp => .jmp (fieldMid3 ir)
  | .reserved => .reserved
  | .lea => .lea (fieldHigh3 ir) (fieldOff9 ir)
  | .trap => .trap (fieldVect8 ir)

/-! ## The encoder (30_encoding R88, with the canonical ignored bits of R87) -/

/-- The canonical word of an instruction: NOT writes its ignored bits as ones, every other form as zeros (R87). -/
def encode : Instr → Word
  | .br nzp off9 => 0b0000#4 ++ nzp ++ off9
  | .addReg dr sr1 sr2 => 0b0001#4 ++ dr ++ sr1 ++ 0b000#3 ++ sr2
  | .addImm dr sr1 imm5 => 0b0001#4 ++ dr ++ sr1 ++ 0b1#1 ++ imm5
  | .ld dr off9 => 0b0010#4 ++ dr ++ off9
  | .st sr off9 => 0b0011#4 ++ sr ++ off9
  | .jsr off11 => 0b01001#5 ++ off11
  | .jsrr base => 0b0100000#7 ++ base ++ 0b000000#6
  | .andReg dr sr1 sr2 => 0b0101#4 ++ dr ++ sr1 ++ 0b000#3 ++ sr2
  | .andImm dr sr1 imm5 => 0b0101#4 ++ dr ++ sr1 ++ 0b1#1 ++ imm5
  | .ldr dr base off6 => 0b0110#4 ++ dr ++ base ++ off6
  | .str sr base off6 => 0b0111#4 ++ sr ++ base ++ off6
  | .rti => 0b1000000000000000#16
  | .not dr sr => 0b1001#4 ++ dr ++ sr ++ 0b111111#6
  | .ldi dr off9 => 0b1010#4 ++ dr ++ off9
  | .sti sr off9 => 0b1011#4 ++ sr ++ off9
  | .jmp base => 0b1100000#7 ++ base ++ 0b000000#6
  | .reserved => 0b1101000000000000#16
  | .lea dr off9 => 0b1110#4 ++ dr ++ off9
  | .trap vect8 => 0b11110000#8 ++ vect8

/-! ## The opcode table's own numbers (spec/opcode_table.json) -/

/-- The "match" of an instruction's row. -/
def tableMatch : Instr → Word
  | .br _ _ => 0x0000
  | .addReg _ _ _ => 0x1000
  | .addImm _ _ _ => 0x1020
  | .ld _ _ => 0x2000
  | .st _ _ => 0x3000
  | .jsr _ => 0x4800
  | .jsrr _ => 0x4000
  | .andReg _ _ _ => 0x5000
  | .andImm _ _ _ => 0x5020
  | .ldr _ _ _ => 0x6000
  | .str _ _ _ => 0x7000
  | .rti => 0x8000
  | .not _ _ => 0x9000
  | .ldi _ _ => 0xA000
  | .sti _ _ => 0xB000
  | .jmp _ => 0xC000
  | .reserved => 0xD000
  | .lea _ _ => 0xE000
  | .trap _ => 0xF000

/-- The "mask" of an instruction's row: the bits that select it. -/
def tableMask : Instr → Word
  | .addReg _ _ _ | .addImm _ _ _ | .andReg _ _ _ | .andImm _ _ _ => 0xF020
  | .jsr _ | .jsrr _ => 0xF800
  | .br _ _ | .ld _ _ | .st _ _ | .ldr _ _ _ | .str _ _ _ | .rti | .not _ _ | .ldi _ _ | .sti _ _ | .jmp _
  | .reserved | .lea _ _ | .trap _ => 0xF000

/-- The ignored bits of an instruction's form (30_encoding R87): they select nothing. -/
def ignoredBits : Instr → Word
  | .addReg _ _ _ | .andReg _ _ _ => 0x0018
  | .not _ _ => 0x003F
  | .jsrr _ => 0x063F
  | .jmp _ => 0x0E3F
  | .rti | .reserved => 0x0FFF
  | .trap _ => 0x0F00
  | .br _ _ | .addImm _ _ _ | .ld _ _ | .st _ _ | .jsr _ | .andImm _ _ _ | .ldr _ _ _ | .str _ _ _ | .ldi _ _
  | .sti _ _ | .lea _ _ => 0x0000

/-! ## The decoder on numbered bits -/

/-- Why bits given as a number are no instruction word. The decoder itself never fails (R83). -/
inductive DecodeError where
  /-- More than the 16 bits every instruction has (30_encoding R80). -/
  | tooLong
  /-- The number does not fit in the bits it is said to have. -/
  | tooWide
  deriving DecidableEq, Repr

/-- The instruction in the `nbits` bits of the number `w`, the bits above them zero; every instruction is one
16-bit word (30_encoding R80). -/
def decodeNumbered (nbits w : Nat) : Except DecodeError Instr :=
  if 16 < nbits then .error .tooLong
  else if 2 ^ nbits ≤ w then .error .tooWide
  else .ok (decode (BitVec.ofNat 16 w))

/-- The instruction the decoder reads from a word numbered as spec/opcode_table.json numbers its bits. -/
def decodeTableWord (nbits w : Nat) : Option Instr :=
  match decodeNumbered nbits w with
  | .ok i => some i
  | .error _ => none

end Sys2Proof
end

