-- ==== Sys2Proof/Config.lean ====
section
/-! DEFINITION. The parameters the spec leaves open (00_scope R6). `StrOffsetWidth` is plain data and is carried in
the state, so that both its settings run (log 4); the three with no default are constants without a body, so that no
proof can learn their values (log 2, log 5, log 6). -/

namespace Sys2Proof

/-- The width of the STR offset field: 9, the document's text and the default, or 6, the reading symmetric with LDR
(00_scope R6, 41_load_store R146, 90_conflicts C7, 92 D3). -/
inductive StrOffsetWidth where
  | nine
  | six
  deriving DecidableEq, Repr

/-- `InitMem`: the memory contents at construction, any function from address to word (00_scope R6, 20_memory R67,
92 D6). A free value: it has no body. Safe. -/
opaque Config.initMem : Word → Word

/-- `DefaultBootPC`: the "fixed default boot address" used when no program image is supplied (00_scope R6,
70_reset R233, 92 D7). A free value: it has no body. Safe. -/
opaque Config.defaultBootPC : Word

/-- What a loader does with an edge image it accepts: the words it writes through `MemWrite`, in order, and the PC it
leaves. It has no other register to give, since the loader "touches no other register" (70_reset R231; log 6). -/
structure EdgeLoad where
  /-- Address and word of each write, the first write first. -/
  writes : List (Word × Word)
  /-- The PC the loader writes last. -/
  pc : Word
  deriving DecidableEq, Repr

/-- `LoaderEdge`: the loader's behaviour on the bytes of an image that runs past address 0xFFFF, has an odd byte count
or is empty (00_scope R6, 70_reset R232, 92 D17, 93 U10); `none` where that loader starts no program. A free value: it
has no body. Safe. -/
opaque Config.loaderEdge : List Byte → Option EdgeLoad

end Sys2Proof
end

