-- ==== Sys2Proof/Machine/State.lean ====
section
/-! DEFINITION. The state of the machine as plain data, the five error kinds, the refusals, and the state after reset
(10_state R20 to R27, R40; 20_memory R60; 60_exceptions R200). -/

namespace Sys2Proof.Machine

/-- One written memory word: its address and its contents. The smallest addressable unit of this hardware is the
16-bit word (20_memory R63, R65; log 1). -/
abbrev WordCell := Nat × Word

/-- The name of a register-file slot: "exactly one storage slot per name; no aliasing" (10_state R20). -/
inductive RegName where
  /-- A general-purpose register, R0 to R7 (R21). -/
  | gpr (i : RegIdx)
  /-- The program counter (R22). -/
  | pc
  /-- The processor status word, which the source also calls PSR (R23, 90_conflicts C9). -/
  | psw
  deriving DecidableEq, Repr

/-- All the state there is between steps: ten register-file slots and the memory (10_state R39, R41), and the
parameter `StrOffsetWidth` carried beside them (log 4). -/
structure State where
  /-- R0 to R7 (R21). -/
  regs : Vector Word 8
  /-- The program counter: "the address of the next instruction to fetch" (R22). -/
  pc : Word
  /-- The processor status word: mode 15, priority 9:7, flag 2:0, the rest unassigned storage (R23). -/
  psw : Word
  /-- The memory words written since construction, by rising address (20_memory R60; log 2, log 3). -/
  mem : List WordCell
  /-- The parameter of STR (00_scope R6). The model's own field: no step changes it. -/
  strOffsetWidth : StrOffsetWidth
  deriving DecidableEq, Repr

/-- The error kinds of 60_exceptions R200. Every one is fatal and none is vectored (R204, R205): the step ends in
the fault. Safe: the hardware halts there too. -/
inductive Fault where
  /-- Code 1. Raised by nothing, "retained as a taxonomy slot" (R200, 30_encoding R90). Safe. -/
  | unknownOpcode
  /-- Code 2. Raised by the register port on a name code 10 to 15, by no instruction (R200, 10_state R38). Safe. -/
  | registerIndexOutOfRange
  /-- Code 3. Raised by RESERVED, always (R200, 43_system R191). Safe. -/
  | reservedOpcode
  /-- Code 4. Raised by RTI in user mode (R200, 43_system R190). Safe. -/
  | illegalPrivilegeTransition
  /-- Code 5. Raised by BR with nzp ≠ 000, and by `get_flag`, on an undefined flag pattern (R200, 42_control R170). Safe. -/
  | statusWordDecode
  deriving DecidableEq, Repr

/-- What the model gives no meaning. No instruction ends in one: they belong to the loader and the driving loop,
and all are safe. -/
inductive Refusal where
  /-- An instruction not modelled yet; raised by no arm of `exec`. Safe. -/
  | notModelled (mnemonic : String)
  /-- An edge image that the loader of the open parameter `LoaderEdge` does not start, raised by `loadEdge`
  (70_reset R232, 92 D17; log 6). Safe. -/
  | loaderEdge
  /-- A host action outside the table of 70_reset R236, raised by `hostAct` (93 U14, 92 D28; log 17). Safe. -/
  | hostAction
  deriving DecidableEq, Repr

/-- The outcome of a step or of a handler: "return success or failure" (30_encoding R92). -/
abbrev Result := Host.Outcome State Fault Refusal

/-- The state after construction, which is reset (10_state R40, 70_reset R230): all ten slots are zero and nothing
has been written to memory. -/
def State.reset : State where
  regs := Vector.replicate 8 0
  pc := 0
  psw := 0
  mem := []
  strOffsetWidth := .nine

end Sys2Proof.Machine
end

