-- ==== Sys2Proof/Machine/Ops.lean ====
section
/-! DEFINITION. The transactions on the register file and the memory (10_state R35, R36, R37; 20_memory R61, R62), the
fetch (30_encoding R92), the raising of an error (60_exceptions R205), and the two ways control is handed over and
given back: the link-and-jump of the calls and TRAP (42_control R176) and the frame RTI pops (43_system R190). -/

namespace Sys2Proof.Machine

/-! ## The register file -/

/-- `x[i]`: the contents of general-purpose register `Ri` (00_scope R10). -/
def State.readReg (s : State) (i : RegIdx) : Word := s.regs[i.toNat]'i.isLt

/-- `x[i] <- v` (00_scope R10). -/
def State.writeReg (s : State) (i : RegIdx) (v : Word) : State := { s with regs := s.regs.set i.toNat v i.isLt }

/-- `pc <- v` (00_scope R10). -/
def State.setPc (s : State) (v : Word) : State := { s with pc := v }

/-- `psw <- v`: all 16 bits as given, no field checked (00_scope R10, 10_state R36). -/
def State.setPsw (s : State) (v : Word) : State := { s with psw := v }

/-- `read(name)` (10_state R35). -/
def State.read (s : State) : RegName → Word
  | .gpr i => s.readReg i
  | .pc => s.pc
  | .psw => s.psw

/-- `write(name, v)` (10_state R36). -/
def State.write (s : State) (n : RegName) (v : Word) : State :=
  match n with
  | .gpr i => s.writeReg i v
  | .pc => s.setPc v
  | .psw => s.setPsw v

/-- `read_then_increment(name)`: the old contents, and the slot stepped by one modulo 2^16 (10_state R37). -/
def State.readThenIncrement (s : State) (n : RegName) : Word × State := (s.read n, s.write n (s.read n + 1))

/-! ## The memory -/

/-- The word written last at an address, if any was written. -/
def memLookup : List WordCell → Nat → Option Word
  | [], _ => none
  | (k, v) :: rest, a => if a = k then some v else memLookup rest a

/-- The cells with a word written at an address, in rising order. -/
def memStore : List WordCell → Nat → Word → List WordCell
  | [], a, w => [(a, w)]
  | (k, v) :: rest, a, w =>
    if a < k then (a, w) :: (k, v) :: rest
    else if a = k then (a, w) :: rest
    else (k, v) :: memStore rest a w

/-- The cells' addresses rise strictly, start at `lo` or above, and lie in the space of 65,536 words (20_memory R60). -/
def memWfFrom : Nat → List WordCell → Bool
  | _, [] => true
  | lo, (k, _) :: rest => decide (lo ≤ k) && decide (k < 65536) && memWfFrom (k + 1) rest

/-- The canonical form of a memory (log 3). An address that no cell lists has no written word. -/
def memWf (m : List WordCell) : Bool := memWfFrom 0 m

/-- `MemRead(a, 1)`: the word at `a`, total and without side effect (20_memory R61). Where nothing was written it is
the parameter `InitMem` at that address (20_memory R67, R72; log 2). -/
def State.memRead (s : State) (a : Word) : Word :=
  match memLookup s.mem a.toNat with
  | some v => v
  | none => Config.initMem a

/-- `MemWrite(a, 1, v)`: total (20_memory R62). -/
def State.memWrite (s : State) (a v : Word) : State := { s with mem := memStore s.mem a.toNat v }

/-! ## The step's own transactions -/

/-- The fetch of a step: the word at the program counter, and the state the handler sees, with the program counter
advanced (30_encoding R92). -/
def fetch (s : State) : Word × State := (s.memRead s.pc, (s.readThenIncrement .pc).2)

/-- A handler's success (30_encoding R92). -/
def ok (s : State) : Result := .next s

/-- `raise <Error>()`: the step ends with the error. There is no exception entry on this hardware: "no handler runs,
nothing is saved" (60_exceptions R205). -/
def raise (k : Fault) : Result := .fault k

/-- The link register R7 of every call form (42_control R176). -/
def linkReg : RegIdx := 7

/-- The register RTI pops from, R6 (10_state R21). -/
def frameReg : RegIdx := 6

/-- The transfer of JSR, JSRR and TRAP to a target already read: R7 receives the incremented PC, then the PC the
target (42_control R172, R173, R175, R176). The flag is not updated (10_state R30). -/
def linkAndJump (target : Word) (s : State) : State := (s.writeReg linkReg s.pc).setPc target

/-- The frame RTI pops: both words are read at the old R6 before R6, the PC and the PSW are written
(43_system R190, 70_reset R238). -/
def popFrame (s : State) : State :=
  let a := s.readReg frameReg
  let newPc := s.memRead a
  let newPsw := s.memRead (a + 1)
  ((s.writeReg frameReg (a + 2)).setPc newPc).setPsw newPsw

/-! ## The codes of the error kinds -/

/-- The code of an error kind: the source's own numbering (60_exceptions R200, 92 D34). -/
def Fault.code : Fault → Nat
  | .unknownOpcode => 1
  | .registerIndexOutOfRange => 2
  | .reservedOpcode => 3
  | .illegalPrivilegeTransition => 4
  | .statusWordDecode => 5

/-- The message the spec gives with an error, where it gives one (43_system R190). -/
def Fault.message : Fault → Option String
  | .illegalPrivilegeTransition => some "illegal return from interrupt in user mode"
  | .unknownOpcode | .registerIndexOutOfRange | .reservedOpcode | .statusWordDecode => none

end Sys2Proof.Machine
end

