-- ==== Sys2Proof/Machine/Flags.lean ====
section
/-! DEFINITION. The fields of the processor status word and the condition code (10_state R23 to R34). -/

namespace Sys2Proof.Machine

/-- The condition code: "one of Negative/Zero/Positive" (00_scope R12, 10_state R24). -/
inductive CondCode where
  | positive
  | zero
  | negative
  deriving DecidableEq, Repr

/-- The privilege modes (10_state R25). -/
inductive Mode where
  | privileged
  | user
  deriving DecidableEq, Repr

/-- The pattern of a flag in `psw[2:0]`: P = 001, Z = 010, N = 100 (10_state R24, 92 D4; log 8). -/
def CondCode.bits : CondCode → BitVec 3
  | .positive => 0b001
  | .zero => 0b010
  | .negative => 0b100

/-- The flag a pattern stands for; the five other patterns are undefined (10_state R24). -/
def flagOfBits (b : BitVec 3) : Option CondCode :=
  if b = 0b001 then some .positive
  else if b = 0b010 then some .zero
  else if b = 0b100 then some .negative
  else none

/-- The condition code of a word (10_state R28). -/
def cc (v : Word) : CondCode :=
  if v.getLsbD 15 then .negative
  else if v = 0 then .zero
  else .positive

/-- The flag field, `psw[2:0]` (10_state R23). -/
def State.flagBits (s : State) : BitVec 3 := s.psw.extractLsb' 0 3

/-- `get_flag`: fails when the field holds an undefined pattern (10_state R32). -/
def State.getFlag (s : State) : Except Fault CondCode :=
  match flagOfBits s.flagBits with
  | some f => .ok f
  | none => .error .statusWordDecode

/-- `get_mode`: `psw[15]`, never failing (10_state R25, R33). That it is total, with no error path of its own, is the
model's choice; R33's unreachable path is in the type of `portGetMode` (93 U6; log 27). -/
def State.getMode (s : State) : Mode := if s.psw.getLsbD 15 then .user else .privileged

/-- `get_priority`: `psw[9:7]`, never failing (10_state R26, R33). That it is total, with no error path of its own, is
the model's choice; R33's unreachable path is in the type of `portGetPriority` (93 U6; log 27). -/
def State.getPriority (s : State) : BitVec 3 := s.psw.extractLsb' 7 3

/-- The bit of a mode in `psw[15]` (10_state R25). -/
def Mode.bit : Mode → BitVec 1
  | .privileged => 0
  | .user => 1

/-- `set_flag`: writes `psw[2:0]` and preserves the other bits (10_state R34, R29; log 12). -/
def State.setFlag (s : State) (f : CondCode) : State := s.setPsw (s.psw.extractLsb' 3 13 ++ f.bits)

/-- `set_mode`: writes `psw[15]` and preserves the other bits (10_state R34). -/
def State.setMode (s : State) (m : Mode) : State := s.setPsw (m.bit ++ s.psw.extractLsb' 0 15)

/-- `set_priority`: writes `psw[9:7]` and preserves the other bits (10_state R34). -/
def State.setPriority (s : State) (p : BitVec 3) : State :=
  s.setPsw (s.psw.extractLsb' 10 6 ++ p ++ s.psw.extractLsb' 0 7)

/-- `update_flag(name)`: `psw[2:0] <- cc(read(name))`, no other bit disturbed (10_state R29). -/
def State.updateFlag (s : State) (n : RegName) : State := s.setFlag (cc (s.read n))

/-- The result write of every flag-updating instruction: the destination register, then `update_flag(DR)`
(10_state R30). -/
def writeResult (dr : RegIdx) (v : Word) (s : State) : State := (s.writeReg dr v).updateFlag (.gpr dr)

/-- The branch condition of BR (42_control R170): with nzp = 000 always, and the flag is not read (92 D13; log 14);
otherwise when the flag is one of those requested, and an undefined flag pattern fails. -/
def branchTaken (nzp : BitVec 3) (s : State) : Except Fault Bool :=
  if nzp = 0 then .ok true
  else
    match s.getFlag with
    | .ok f => .ok (decide (nzp &&& f.bits ≠ 0))
    | .error k => .error k

end Sys2Proof.Machine
end

