-- ==== Sys2Proof/Machine/Operands.lean ====
section
/-! DEFINITION. How operands are assembled: sign and zero extension (00_scope R9), and the effective addresses
(41_load_store R140, R141, R142; 42_control R171 to R175). All sums wrap modulo 2^16 (20_memory R71; log 10). The
states here are those a handler sees, so `pc` is the incremented program counter (10_state R22). -/

namespace Sys2Proof.Machine

/-- `sext_16` of a field (00_scope R9): the mask of all bits from the field's width up is set when its sign bit is. -/
def sext (n : Nat) (f : BitVec n) : Word :=
  if f.getLsbD (n - 1) then f.setWidth 16 ||| (0xFFFF#16 <<< n) else f.setWidth 16

/-- `zext_16` of a field (00_scope R9). -/
def zext (n : Nat) (f : BitVec n) : Word := f.setWidth 16

/-- The PC-relative address of a 9-bit offset (41_load_store R140; the branch target of 42_control R171). -/
def pcRel9 (off9 : BitVec 9) (s : State) : Word := s.pc + sext 9 off9

/-- The PC-relative target of JSR (42_control R172). -/
def pcRel11 (off11 : BitVec 11) (s : State) : Word := s.pc + sext 11 off11

/-- The base-plus-offset address of LDR (41_load_store R141, R145). -/
def ldrAddr (base : RegIdx) (off6 : BitVec 6) (s : State) : Word := s.readReg base + sext 6 off6

/-- The offset of STR under each setting of `StrOffsetWidth`: `ir[8:0]`, which is the BaseR field followed by
`ir[5:0]`, or `ir[5:0]` alone (41_load_store R146, 90_conflicts C7; log 4). -/
def strOffset (width : StrOffsetWidth) (base : RegIdx) (off6 : BitVec 6) : Word :=
  match width with
  | .nine => sext 9 (base ++ off6)
  | .six => sext 6 off6

/-- The base-plus-offset address of STR (41_load_store R141, R146). -/
def strAddr (base : RegIdx) (off6 : BitVec 6) (s : State) : Word :=
  s.readReg base + strOffset s.strOffsetWidth base off6

/-- The pointer of LDI and STI, read at the PC-relative address (41_load_store R142). -/
def indirectAddr (off9 : BitVec 9) (s : State) : Word := s.memRead (pcRel9 off9 s)

/-- The entry of the trap vector table (20_memory R66, 42_control R175). -/
def trapTarget (vect8 : BitVec 8) (s : State) : Word := s.memRead (zext 8 vect8)

end Sys2Proof.Machine
end

