-- ==== Sys2Proof/Machine/Alu.lean ====
section
/-! DEFINITION. ADD, AND and NOT (40_alu). The state is the one the handler sees: fetched, the PC advanced. -/

namespace Sys2Proof.Machine

/-- The shared operate routine (40_alu R120), its two operands already read. -/
def operate (op : Word → Word → Word) (dr : RegIdx) (a b : Word) (s : State) : Result := ok (writeResult dr (op a b) s)

/-- ADD, register mode: the sum wraps modulo 2^16 (40_alu R121, R126). -/
def execAddReg (dr sr1 sr2 : RegIdx) (s : State) : Result :=
  operate (fun a b => a + b) dr (s.readReg sr1) (s.readReg sr2) s

/-- ADD, immediate mode (40_alu R122). -/
def execAddImm (dr sr1 : RegIdx) (imm5 : BitVec 5) (s : State) : Result :=
  operate (fun a b => a + b) dr (s.readReg sr1) (sext 5 imm5) s

/-- AND, register mode (40_alu R123). -/
def execAndReg (dr sr1 sr2 : RegIdx) (s : State) : Result :=
  operate (fun a b => a &&& b) dr (s.readReg sr1) (s.readReg sr2) s

/-- AND, immediate mode (40_alu R124). -/
def execAndImm (dr sr1 : RegIdx) (imm5 : BitVec 5) (s : State) : Result :=
  operate (fun a b => a &&& b) dr (s.readReg sr1) (sext 5 imm5) s

/-- NOT (40_alu R125). -/
def execNot (dr sr : RegIdx) (s : State) : Result := ok (writeResult dr (~~~(s.readReg sr)) s)

end Sys2Proof.Machine
end

