-- ==== Sys2Proof/Machine/Control.lean ====
section
/-! DEFINITION. BR, JSR, JSRR, JMP and TRAP (42_control). The state is the one the handler sees. -/

namespace Sys2Proof.Machine

/-- BR (42_control R171). -/
def execBr (nzp : BitVec 3) (off9 : BitVec 9) (s : State) : Result :=
  match branchTaken nzp s with
  | .ok true => ok (s.setPc (pcRel9 off9 s))
  | .ok false => ok s
  | .error k => raise k

/-- JSR (42_control R172). -/
def execJsr (off11 : BitVec 11) (s : State) : Result := ok (linkAndJump (pcRel11 off11 s) s)

/-- JSRR (42_control R173): the target is read before R7 is written (90_conflicts C5, 92 D9; log 11). -/
def execJsrr (base : RegIdx) (s : State) : Result := ok (linkAndJump (s.readReg base) s)

/-- JMP (42_control R174). -/
def execJmp (base : RegIdx) (s : State) : Result := ok (s.setPc (s.readReg base))

/-- TRAP (42_control R175): the PSW and the stack are not touched, in either mode (92 D22; log 18). -/
def execTrap (vect8 : BitVec 8) (s : State) : Result := ok (linkAndJump (trapTarget vect8 s) s)

end Sys2Proof.Machine
end

