-- ==== Sys2Proof/Machine/LoadStore.lean ====
section
/-! DEFINITION. LD, ST, LDR, STR, LDI, STI and LEA (41_load_store). The state is the one the handler sees. -/

namespace Sys2Proof.Machine

/-- LD (41_load_store R143). -/
def execLd (dr : RegIdx) (off9 : BitVec 9) (s : State) : Result := ok (writeResult dr (s.memRead (pcRel9 off9 s)) s)

/-- ST (41_load_store R144): no flag. -/
def execSt (sr : RegIdx) (off9 : BitVec 9) (s : State) : Result := ok (s.memWrite (pcRel9 off9 s) (s.readReg sr))

/-- LDR (41_load_store R145). -/
def execLdr (dr base : RegIdx) (off6 : BitVec 6) (s : State) : Result :=
  ok (writeResult dr (s.memRead (ldrAddr base off6 s)) s)

/-- STR (41_load_store R146), under the setting of `StrOffsetWidth` the state carries: no flag. -/
def execStr (sr base : RegIdx) (off6 : BitVec 6) (s : State) : Result :=
  ok (s.memWrite (strAddr base off6 s) (s.readReg sr))

/-- LDI (41_load_store R147). -/
def execLdi (dr : RegIdx) (off9 : BitVec 9) (s : State) : Result :=
  ok (writeResult dr (s.memRead (indirectAddr off9 s)) s)

/-- STI (41_load_store R148): the pointer is read before the write; no flag. -/
def execSti (sr : RegIdx) (off9 : BitVec 9) (s : State) : Result := ok (s.memWrite (indirectAddr off9 s) (s.readReg sr))

/-- LEA (41_load_store R149): address computation only, no memory access; the flag is updated. -/
def execLea (dr : RegIdx) (off9 : BitVec 9) (s : State) : Result := ok (writeResult dr (pcRel9 off9 s) s)

end Sys2Proof.Machine
end

