-- ==== Sys2Proof/Machine/System.lean ====
section
/-! DEFINITION. RTI and RESERVED (43_system). The state is the one the handler sees. -/

namespace Sys2Proof.Machine

/-- RTI (43_system R190): privileged; in user mode it fails and writes nothing. The popped PSW is stored unchecked
(90_conflicts C3, 92 D23; log 19). -/
def execRti (s : State) : Result :=
  match s.getMode with
  | .user => raise .illegalPrivilegeTransition
  | .privileged => ok (popFrame s)

/-- RESERVED (43_system R191): "always fails with a reserved-opcode error; never partially mutates state". -/
def execReserved (_ : State) : Result := raise .reservedOpcode

end Sys2Proof.Machine
end

