-- ==== Sys2Proof/Machine/Step.lean ====
section
/-! DEFINITION. The execution step, "the only transaction of the engine" (30_encoding R92). -/

namespace Sys2Proof.Machine

/-- One execution step: fetch, advance the program counter, decode, dispatch (30_encoding R92). -/
def step (s : State) : Host.Outcome State Fault Refusal :=
  exec (decode (fetch s).1) (fetch s).2

/-- The state with an instruction word where the next step fetches it, written as the loader writes a program word
(70_reset R231; log 20). Every instruction is one 16-bit word (30_encoding R80). -/
def State.withFetchWord (s : State) (nbits w : Nat) : State :=
  s.memWrite s.pc (BitVec.ofNat 16 (w % 2 ^ nbits))

end Sys2Proof.Machine
end

