-- ==== Sys2Proof/Machine/Loader.lean ====
section
/-! DEFINITION. The loader's contract with the core (70_reset R231, R232, R233). The loader is outside the core
(00_scope R4); these operations say what it must have done before the first step. What it does with an image the
contract says nothing about is the open parameter `LoaderEdge` (92 D17; log 6). -/

namespace Sys2Proof.Machine

/-- The words of a program written from an address on, in program order, through `MemWrite` (70_reset R231). -/
def writeWords : Word → List Word → State → State
  | _, [], s => s
  | a, w :: ws, s => writeWords (a + 1) ws (s.memWrite a w)

/-- Single words written in order through `MemWrite`. -/
def writePairs : List (Word × Word) → State → State
  | [], s => s
  | (a, w) :: rest, s => writePairs rest (s.memWrite a w)

/-- The load of an edge image: whatever the open parameter `LoaderEdge` says for its bytes (70_reset R232, 92 D17;
log 6). -/
def loadEdge (bytes : List Byte) (s : State) : Result :=
  match Config.loaderEdge bytes with
  | some r => .next ((writePairs r.writes s).setPc r.pc)
  | none => .refused .loaderEdge

/-- The bytes of words, each big-endian: "bits 15:8 in the first byte and bits 7:0 in the second" (70_reset R232). -/
def imageBytes (ws : List Word) : List Byte := ws.flatMap fun w => [w.extractLsb' 8 8, w.extractLsb' 0 8]

/-- The load of a program: its words from the origin on, then the PC at the origin; no other register is touched
(70_reset R231). A program that runs past address 0xFFFF is an edge image (R232). -/
def loadProgram (origin : Word) (ws : List Word) (s : State) : Result :=
  if origin.toNat + ws.length ≤ 65536 then .next ((writeWords origin ws s).setPc origin)
  else loadEdge (imageBytes (origin :: ws)) s

/-- No program image supplied: the PC at the default boot address (70_reset R231, R233; log 5). -/
def bootDefault (s : State) : Result := .next (s.setPc Config.defaultBootPC)

/-- The big-endian words of an image's bytes; none where their number is odd (70_reset R232). -/
def imageWords : List Byte → Option (List Word)
  | [] => some []
  | [_] => none
  | hi :: lo :: rest =>
    match imageWords rest with
    | some ws => some ((hi ++ lo) :: ws)
    | none => none

/-- The load of an image file: the first word is the origin, all others the program (70_reset R232). An empty image
and one of an odd number of bytes are edge images. -/
def loadImage (bytes : List Byte) (s : State) : Result :=
  match imageWords bytes with
  | some (origin :: ws) => loadProgram origin ws s
  | some [] => loadEdge bytes s
  | none => loadEdge bytes s

end Sys2Proof.Machine
end

