-- ==== Sys2Proof/Machine/Port.lean ====
section
/-! DEFINITION. The register port, which names a slot by a 4-bit code (10_state R38, 92 D16; log 16), and its reads of
the mode and the priority (R33; log 27). No instruction goes through it: an instruction's 3-bit selector cannot lie
outside the register file (30_encoding R84). -/

namespace Sys2Proof.Machine

/-- The slot of a name code: 0 to 7 are R0 to R7, 8 the PC, 9 the PSW, 10 to 15 fail (10_state R38). -/
def regNameOfCode (code : BitVec 4) : Except Fault RegName :=
  if code.toNat < 8 then .ok (.gpr (code.setWidth 3))
  else if code = 8 then .ok .pc
  else if code = 9 then .ok .psw
  else .error .registerIndexOutOfRange

/-- `read` on the port (10_state R35, R38). -/
def portRead (code : BitVec 4) (s : State) : Except Fault Word :=
  match regNameOfCode code with
  | .ok n => .ok (s.read n)
  | .error k => .error k

/-- `write` on the port; a failing name writes nothing (10_state R36, R38). -/
def portWrite (code : BitVec 4) (v : Word) (s : State) : Except Fault State :=
  match regNameOfCode code with
  | .ok n => .ok (s.write n v)
  | .error k => .error k

/-- `read_then_increment` on the port; a failing name writes nothing (10_state R37, R38). -/
def portReadThenIncrement (code : BitVec 4) (s : State) : Except Fault (Word × State) :=
  match regNameOfCode code with
  | .ok n => .ok (s.readThenIncrement n)
  | .error k => .error k

/-- `update_flag` on the port; a failing name writes nothing (10_state R29, R38). That the name codes reach this
operation too is the model's extension of R38 (log 16). -/
def portUpdateFlag (code : BitVec 4) (s : State) : Except Fault State :=
  match regNameOfCode code with
  | .ok n => .ok (s.updateFlag n)
  | .error k => .error k

/-- `get_mode` as the interface has it, with a decode-error path that nothing takes (10_state R33, 93 U6; log 27). -/
def portGetMode (s : State) : Except Fault Mode := .ok s.getMode

/-- `get_priority` as the interface has it, with a decode-error path that nothing takes (10_state R33, 93 U6;
log 27). -/
def portGetPriority (s : State) : Except Fault (BitVec 3) := .ok s.getPriority

end Sys2Proof.Machine
end

