-- ==== Sys2Proof/Machine/Session.lean ====
section
/-! DEFINITION. The state after a failed step (60_exceptions R203) and the host's interactions with the block: load,
step, abort (70_reset R235, R236). The driving loop is outside the core (00_scope R4); its contract is what this says. -/

namespace Sys2Proof.Machine

/-- The block's state after a step: a failed step leaves the fetch and the advanced PC and nothing else
(60_exceptions R203, 92 D14; log 15). -/
def afterStep (s : State) : State :=
  match step s with
  | .next t => t
  | .fault _ => (fetch s).2
  | .refused _ => (fetch s).2

/-- Where the driving loop stands (70_reset R235, R236). -/
inductive Phase where
  /-- Before the first step: the loader may write. -/
  | loading
  /-- At least one step taken and none failed. -/
  | running
  /-- A step failed with this error and the loop has not aborted yet. -/
  | failed (k : Fault)
  /-- The loop aborted; no further step is invoked (60_exceptions R204). -/
  | aborted
  deriving DecidableEq, Repr

/-- The block and the loop that drives it. The abort signal is the loop's, not the block's (10_state R41). -/
structure Session where
  phase : Phase
  block : State
  deriving DecidableEq, Repr

/-- Construction: nothing loaded (70_reset R230). -/
def Session.start : Session := { phase := .loading, block := State.reset }

/-- What the host does to the block (70_reset R236). To inspect is to read the block's state and changes nothing. -/
inductive HostAction where
  /-- The loader's `MemWrite(a, 1, v)`. -/
  | loadWord (a v : Word)
  /-- The loader's `write(PC, v)`. -/
  | loadPc (v : Word)
  /-- One step. -/
  | step
  /-- The abort. -/
  | abort
  deriving DecidableEq, Repr

/-- A step the loop invokes: its error, if any, is surfaced unmodified (60_exceptions R201). -/
def sessionStep (x : Session) : Session :=
  { phase :=
      match step x.block with
      | .next _ => .running
      | .fault k => .failed k
      | .refused _ => .running
    block := afterStep x.block }

/-- One host action: the loader writes only before the first step, the loop steps until a step fails, and aborts only
after one has failed; any other action is refused (70_reset R235, R236; 93 U14; log 17). -/
def hostAct (act : HostAction) (x : Session) : Host.Outcome Session Fault Refusal :=
  match act, x.phase with
  | .loadWord a v, .loading => .next { x with block := x.block.memWrite a v }
  | .loadPc v, .loading => .next { x with block := x.block.setPc v }
  | .step, .loading => .next (sessionStep x)
  | .step, .running => .next (sessionStep x)
  | .abort, .failed _ => .next { x with phase := .aborted }
  | .loadWord _ _, .running => .refused .hostAction
  | .loadWord _ _, .failed _ => .refused .hostAction
  | .loadWord _ _, .aborted => .refused .hostAction
  | .loadPc _, .running => .refused .hostAction
  | .loadPc _, .failed _ => .refused .hostAction
  | .loadPc _, .aborted => .refused .hostAction
  | .step, .failed _ => .refused .hostAction
  | .step, .aborted => .refused .hostAction
  | .abort, .loading => .refused .hostAction
  | .abort, .running => .refused .hostAction
  | .abort, .aborted => .refused .hostAction

end Sys2Proof.Machine
end

