-- ==== Sys2Proof/Safety.lean ====
section
/-! DEFINITION. The terms the statements use: what a handler wrote and what it left, the invariants of a run, and how a
run ends. -/

namespace Sys2Proof.Machine

/-! ## What a handler leaves unchanged -/

/-- Every word of memory reads as before. -/
def SameMemory (s t : State) : Prop := ∀ a, t.memRead a = s.memRead a

/-- Every word of memory but the one at `a` reads as before. -/
def SameMemoryBut (a : Word) (s t : State) : Prop := ∀ b, b ≠ a → t.memRead b = s.memRead b

/-- Every general-purpose register reads as before. -/
def SameRegs (s t : State) : Prop := ∀ r, t.readReg r = s.readReg r

/-- Every general-purpose register but `Ri` reads as before. -/
def SameRegsBut (i : RegIdx) (s t : State) : Prop := ∀ r, r ≠ i → t.readReg r = s.readReg r

/-- The parameter `StrOffsetWidth` is as before (log 4). -/
def SameParams (s t : State) : Prop := t.strOffsetWidth = s.strOffsetWidth

/-- The flag is `f`, and PSW bits 15 to 3 are as before (10_state R29). -/
def FlagWritten (f : CondCode) (s t : State) : Prop :=
  t.getFlag = .ok f ∧ t.psw.extractLsb' 3 13 = s.psw.extractLsb' 3 13

/-! ## The five shapes of a handler's effect, each with its frame -/

/-- `v` in the destination register and its condition code in the flag; nothing else, and the PC where the fetch
left it (10_state R22, R30). -/
def ResultWritten (dr : RegIdx) (v : Word) (s t : State) : Prop :=
  t.readReg dr = v ∧ SameRegsBut dr s t ∧ t.pc = s.pc ∧ FlagWritten (cc v) s t ∧ SameMemory s t ∧ SameParams s t

/-- `v` stored at `a`; nothing else, and the PC where the fetch left it. -/
def Stored (a v : Word) (s t : State) : Prop :=
  t.memRead a = v ∧ SameMemoryBut a s t ∧ SameRegs s t ∧ t.pc = s.pc ∧ t.psw = s.psw ∧ SameParams s t

/-- The PC at the target; nothing else. -/
def JumpedTo (target : Word) (s t : State) : Prop :=
  t.pc = target ∧ SameRegs s t ∧ t.psw = s.psw ∧ SameMemory s t ∧ SameParams s t

/-- R7 at the incremented PC and the PC at the target; nothing else (42_control R176). -/
def LinkedTo (target : Word) (s t : State) : Prop :=
  t.readReg 7 = s.pc ∧ t.pc = target ∧ SameRegsBut 7 s t ∧ t.psw = s.psw ∧ SameMemory s t ∧ SameParams s t

/-- The frame at R6 popped: the PC and the whole PSW from the two words there, R6 past them; nothing else
(43_system R190). -/
def FramePopped (s t : State) : Prop :=
  t.pc = s.memRead (s.readReg 6) ∧ t.psw = s.memRead (s.readReg 6 + 1) ∧ t.readReg 6 = s.readReg 6 + 2 ∧
    SameRegsBut 6 s t ∧ SameMemory s t ∧ SameParams s t

/-! ## What an instruction writes -/

/-- The address an instruction stores to, computed as its meaning computes it (20_memory R70). -/
def storeAddr (i : Instr) (s : State) : Option Word :=
  match i with
  | .st _ off9 => some (pcRel9 off9 s)
  | .str _ base off6 => some (strAddr base off6 s)
  | .sti _ off9 => some (indirectAddr off9 s)
  | .br _ _ | .addReg _ _ _ | .addImm _ _ _ | .ld _ _ | .jsr _ | .jsrr _ | .andReg _ _ _ | .andImm _ _ _
  | .ldr _ _ _ | .rti | .not _ _ | .ldi _ _ | .jmp _ | .reserved | .lea _ _ | .trap _ => none

/-- The register whose contents an instruction stores (20_memory R70, 41_load_store R144, R146, R148). -/
def storeSource : Instr → Option RegIdx
  | .st sr _ | .str sr _ _ | .sti sr _ => some sr
  | .br _ _ | .addReg _ _ _ | .addImm _ _ _ | .ld _ _ | .jsr _ | .jsrr _ | .andReg _ _ _ | .andImm _ _ _
  | .ldr _ _ _ | .rti | .not _ _ | .ldi _ _ | .jmp _ | .reserved | .lea _ _ | .trap _ => none

/-- The destination register of the flag-updating instructions (10_state R30). -/
def flagDest : Instr → Option RegIdx
  | .addReg dr _ _ | .addImm dr _ _ | .andReg dr _ _ | .andImm dr _ _ | .not dr _ | .ld dr _ | .ldr dr _ _
  | .ldi dr _ | .lea dr _ => some dr
  | .br _ _ | .st _ _ | .jsr _ | .jsrr _ | .str _ _ _ | .rti | .sti _ _ | .jmp _ | .reserved | .trap _ => none

/-- The general-purpose register an instruction writes (10_state R21, the table's last column). -/
def regDest : Instr → Option RegIdx
  | .addReg dr _ _ | .addImm dr _ _ | .andReg dr _ _ | .andImm dr _ _ | .not dr _ | .ld dr _ | .ldr dr _ _
  | .ldi dr _ | .lea dr _ => some dr
  | .jsr _ | .jsrr _ | .trap _ => some 7
  | .rti => some 6
  | .br _ _ | .st _ _ | .str _ _ _ | .sti _ _ | .jmp _ | .reserved => none

/-! ## Invariants -/

/-- The memory is in its canonical form (log 3). -/
def Canonical (s : State) : Prop := memWf s.mem = true

/-- The machine is in user mode (10_state R25). -/
def InUserMode (s : State) : Prop := s.getMode = .user

/-- The flag field holds one of the three defined patterns (10_state R24, R31). -/
def FlagDefined (s : State) : Prop := ∃ f, s.getFlag = .ok f

/-! ## The loader's edge images -/

/-- Each address among the pairs holds a word they give it, and every other word of memory reads as before. -/
def PairsWritten (ps : List (Word × Word)) (s t : State) : Prop :=
  ∀ a, if a ∈ ps.map Prod.fst then (a, t.memRead a) ∈ ps else t.memRead a = s.memRead a

/-- What a loader did that accepted an edge image: its words written, the PC as it says, and every other register as
before (70_reset R231; log 6). -/
def EdgeLoaded (r : EdgeLoad) (s t : State) : Prop :=
  PairsWritten r.writes s t ∧ t.pc = r.pc ∧ SameRegs s t ∧ t.psw = s.psw ∧ SameParams s t

/-- The outcome is what the open parameter `LoaderEdge` says for these bytes, whatever its value (92 D17; log 6). -/
def FollowsLoaderEdge (bytes : List Byte) (s : State) (x : Result) : Prop :=
  match Config.loaderEdge bytes with
  | some r => ∃ t, x = .next t ∧ EdgeLoaded r s t
  | none => x = .refused .loaderEdge

/-! ## The privilege mode as a secret -/

/-- The state in the other privilege mode, every other bit as it is. -/
def flipMode (s : State) : State := s.setPsw (s.psw ^^^ 0x8000)

/-- An outcome with a function applied to its next state. -/
def mapNext (f : State → State) : Result → Result
  | .next t => .next (f t)
  | .fault k => .fault k
  | .refused r => .refused r

/-! ## The end of a run -/

/-- A run that ends successfully: `k` steps, none failing, bring the PC to the stop address the claim chose. A failed
step is no successful end (70_reset R237, 92 D15; log 21). -/
def EndsAt (stop : Word) (k : Nat) (s : State) : Prop :=
  ∃ t, Host.Core.run core k s = .next t ∧ t.pc = stop

/-- A run that ends faulted: `k` steps succeed and the next one fails with this error (70_reset R237). -/
def FaultsAfter (e : Fault) (k : Nat) (s : State) : Prop :=
  ∃ t, Host.Core.run core k s = .next t ∧ step t = .fault e

end Sys2Proof.Machine
end

