-- ==== Sys2Proof/Certificates/Slice0/Obligations.lean ====
section
/-! DEFINITION. The statements for the provers. In a statement about `exec` the state `s` is the one a handler sees: the
word is fetched and the PC advanced (30_encoding R92), so `s.pc` is the incremented PC. "log n" is
notes/assumptions/n.md; a decision D<n> named in a docstring is the spec's own choice (92_eei_decisions), which
the model follows under that log entry. -/

open Sys2Proof Sys2Proof.Machine

/-! ## Notation of the spec -/

/-- R9: the extended word repeats the field's sign bit above the field, bit-exactly, and `zext_16` puts zeros there;
the rule's own example is the third clause. -/
def Obligations.SignExtensionIsBitExact : Prop :=
  (∀ (n : Nat) (f : BitVec n), 0 < n → n ≤ 16 → ∀ k < 16,
    (sext n f).getLsbD k = (if k < n then f.getLsbD k else f.getLsbD (n - 1)) ∧
    (zext n f).getLsbD k = (if k < n then f.getLsbD k else false)) ∧
  (∀ (n : Nat) (f : BitVec n), 0 < n → n ≤ 16 →
    sext n f = if f.getLsbD (n - 1) then f.setWidth 16 ||| (0xFFFF#16 <<< n) else f.setWidth 16) ∧
  sext 9 (0x1FF : BitVec 9) = 0xFFFF

/-! ## The register file and the processor status word -/

/-- R36: a slot written reads back exactly, no other slot changes, and the PSW takes all 16 bits as given. -/
def Obligations.RegisterWriteThenRead : Prop :=
  ∀ (s : State) (n : RegName) (v : Word),
    (s.write n v).read n = v ∧ (∀ m, m ≠ n → (s.write n v).read m = s.read m) ∧ SameMemory s (s.write n v)

/-- R25, R33: the mode is `psw[15]` and the priority `psw[9:7]`, for every PSW, and neither read fails, the interface's
own reads with their unreachable error path included (the two forms: log 27). -/
def Obligations.ModeAndPriorityAlwaysRead : Prop :=
  ∀ s : State,
    (s.getMode = .user ↔ s.psw.getLsbD 15 = true) ∧ (s.getMode = .privileged ↔ s.psw.getLsbD 15 = false) ∧
    s.getPriority = s.psw.extractLsb' 7 3 ∧
    portGetMode s = .ok s.getMode ∧ portGetPriority s = .ok s.getPriority

/-- R24, R32: `get_flag` answers on three patterns and fails on the five others. Which pattern is which flag is the
spec's choice D4 (log 8). -/
def Obligations.GetFlagDecodesThreePatterns : Prop :=
  ∀ s : State,
    s.getFlag =
      if s.psw.extractLsb' 0 3 = 0b001#3 then .ok .positive
      else if s.psw.extractLsb' 0 3 = 0b010#3 then .ok .zero
      else if s.psw.extractLsb' 0 3 = 0b100#3 then .ok .negative
      else .error .statusWordDecode

/-- R28: negative, zero or positive by the sign bit and zero-ness. The bits of the three are the spec's choice D4
(log 8). -/
def Obligations.ConditionCodeOfWord : Prop :=
  ∀ v : Word,
    (cc v).bits = if v.getLsbD 15 then 0b100#3 else if v = 0 then 0b010#3 else 0b001#3

/-- R29: `update_flag` gives the register's condition code and changes nothing but `psw[2:0]`; twice is as once. That it
preserves the unassigned bits is the spec's choice D10 (log 12). -/
def Obligations.UpdateFlagWritesOnlyTheFlag : Prop :=
  ∀ (s : State) (n : RegName),
    FlagWritten (cc (s.read n)) s (s.updateFlag n) ∧
    (∀ m, m ≠ .psw → (s.updateFlag n).read m = s.read m) ∧ SameMemory s (s.updateFlag n) ∧
    (n ≠ .psw → (s.updateFlag n).updateFlag n = s.updateFlag n)

/-- R31: after every `update_flag` and every `set_flag` exactly one of PSW bits 0 to 2 is 1. A derived rule of the
spec. -/
def Obligations.ExactlyOneFlagBitAfterUpdate : Prop :=
  ∀ (s t : State), (∃ n, t = s.updateFlag n) ∨ (∃ f, t = s.setFlag f) →
    ∃ k < 3, ∀ j < 3, (t.psw.getLsbD j = true ↔ j = k)

/-- R34: each of the three field writes reads back and leaves every bit outside its field; that is the spec's
choice D27 (log 12). -/
def Obligations.FieldWritesKeepOtherBits : Prop :=
  ∀ s : State,
    (∀ f, (s.setFlag f).getFlag = .ok f ∧
      ∀ k < 16, 3 ≤ k → (s.setFlag f).psw.getLsbD k = s.psw.getLsbD k) ∧
    (∀ m, (s.setMode m).getMode = m ∧
      ∀ k < 15, (s.setMode m).psw.getLsbD k = s.psw.getLsbD k) ∧
    (∀ p, (s.setPriority p).getPriority = p ∧
      ∀ k < 16, k < 7 ∨ 10 ≤ k → (s.setPriority p).psw.getLsbD k = s.psw.getLsbD k)

/-- R37: the old contents returned, the slot stepped by one, nothing else changed. The wrap is the spec's choice D8
(log 10). -/
def Obligations.ReadThenIncrementSteps : Prop :=
  ∀ (s : State) (n : RegName),
    (s.readThenIncrement n).1 = s.read n ∧
    (((s.readThenIncrement n).2).read n).toNat = ((s.read n).toNat + 1) % 65536 ∧
    (∀ m, m ≠ n → ((s.readThenIncrement n).2).read m = s.read m) ∧ SameMemory s (s.readThenIncrement n).2

/-- R38: name codes 0 to 7 are R0 to R7, 8 the PC, 9 the PSW, and 10 to 15 fail, on every operation that takes a name.
The codes are the spec's choice D16; that `update_flag` takes one too is the model's extension of R38 (log 16). -/
def Obligations.RegisterPortCodes : Prop :=
  ∀ (code : BitVec 4) (v : Word) (s : State),
    (∀ i : RegIdx, code.toNat = i.toNat →
      portRead code s = .ok (s.readReg i) ∧ portWrite code v s = .ok (s.writeReg i v) ∧
      portReadThenIncrement code s = .ok (s.readThenIncrement (.gpr i)) ∧
      portUpdateFlag code s = .ok (s.updateFlag (.gpr i))) ∧
    (code.toNat = 8 → portRead code s = .ok s.pc ∧ portWrite code v s = .ok (s.setPc v) ∧
      portReadThenIncrement code s = .ok (s.readThenIncrement .pc) ∧
      portUpdateFlag code s = .ok (s.updateFlag .pc)) ∧
    (code.toNat = 9 → portRead code s = .ok s.psw ∧ portWrite code v s = .ok (s.setPsw v) ∧
      portReadThenIncrement code s = .ok (s.readThenIncrement .psw) ∧
      portUpdateFlag code s = .ok (s.updateFlag .psw)) ∧
    (10 ≤ code.toNat →
      portRead code s = .error .registerIndexOutOfRange ∧ portWrite code v s = .error .registerIndexOutOfRange ∧
      portReadThenIncrement code s = .error .registerIndexOutOfRange ∧
      portUpdateFlag code s = .error .registerIndexOutOfRange)

/-! ## Reset -/

/-- R40, R230: all ten slots are zero; privileged, priority 0. That no flag is set is the spec's choice D5 (log 9). -/
def Obligations.ResetSlotsAreZero : Prop :=
  (∀ n, State.reset.read n = 0) ∧ State.reset.getMode = .privileged ∧ State.reset.getPriority = 0 ∧
    State.reset.getFlag = .error .statusWordDecode

/-- R67, R230: every memory word holds `InitMem` at construction. A parameter the spec leaves open, D6 (log 2): the
statement holds for every value of it. -/
def Obligations.ResetMemoryIsInitMem : Prop :=
  ∀ a : Word, State.reset.memRead a = Config.initMem a

/-! ## Memory -/

/-- R62: the word stored is the word read, and no other word and no register changes. -/
def Obligations.MemoryWriteThenRead : Prop :=
  ∀ (s : State) (a v b : Word),
    (s.memWrite a v).memRead b = (if b = a then v else s.memRead b) ∧
    ∀ n, (s.memWrite a v).read n = s.read n

/-- R70: every instruction leaves every memory word but the one at the address it stores to, and an instruction that
stores nothing leaves them all. `storeAddr` computes the address as the meaning does. A derived rule of the spec. -/
def Obligations.OnlyTheStoredWordChanges : Prop :=
  ∀ (i : Instr) (s t : State), exec i s = .next t →
    ∀ b, storeAddr i s ≠ some b → t.memRead b = s.memRead b

/-- R21, R150: every instruction leaves every general-purpose register but the one the table of R21 says it writes; in
particular no addressing mode modifies its base register. Derived rules of the spec. -/
def Obligations.OnlyTheDestinationRegisterChanges : Prop :=
  ∀ (i : Instr) (s t : State), exec i s = .next t →
    ∀ r, regDest i ≠ some r → t.readReg r = s.readReg r

/-- R74: a store, by ST, STR or STI, to the word the next step fetches changes the instruction that step executes.
`storeAddr` computes the address as the meaning does. A derived rule of the spec, with D20 (log 23) and D8 for the wrap
of the PC (log 10). -/
def Obligations.StoreIsSeenByTheNextFetch : Prop :=
  ∀ (s : State) (i : Instr) (sr : RegIdx), decode (s.memRead s.pc) = i →
    storeAddr i (s.setPc (s.pc + 1)) = some (s.pc + 1) → storeSource i = some sr →
    ∃ t, step s = .next t ∧ t.pc = s.pc + 1 ∧ step t = exec (decode (s.readReg sr)) (t.setPc (s.pc + 2))

/-! ## Encoding -/

/-- R82, R88: words written out from the formats decode to the instructions they stand for, one of every family. The
opcode numbers and most positions are the spec's choices D1, D2 (log 7). -/
def Obligations.KnownWordsDecode : Prop :=
  decode 0x0605 = .br 0b011 5 ∧ decode 0x1042 = .addReg 0 1 2 ∧ decode 0x1063 = .addImm 0 1 3 ∧
  decode 0x5642 = .andReg 3 1 2 ∧ decode 0x94BF = .not 2 2 ∧ decode 0x21FF = .ld 0 0x1FF ∧
  decode 0x607F = .ldr 0 1 0x3F ∧ decode 0x7281 = .str 1 2 1 ∧ decode 0xB5F4 = .sti 2 0x1F4 ∧
  decode 0x4803 = .jsr 3 ∧ decode 0x41C0 = .jsrr 7 ∧ decode 0xC1C0 = .jmp 7 ∧ decode 0xF020 = .trap 0x20 ∧
  decode 0x8000 = .rti ∧ decode 0xD000 = .reserved

/-- Decode of encode is the instruction, for every instruction and every operand. The encodings rest on the spec's
choices D1, D2, D3, D12 (log 7, log 13). -/
def Obligations.DecodeOfEncode : Prop :=
  ∀ i : Instr, decode (encode i) = i

/-- Decoding drops the ignored bits and no other: the canonical word of what a word decodes to agrees with it on every
bit that is not ignored. The ignored bits are the spec's choice D12 (log 13). -/
def Obligations.DecodeDropsOnlyIgnoredBits : Prop :=
  ∀ w : Word,
    encode (decode w) &&& ~~~(ignoredBits (decode w)) = w &&& ~~~(ignoredBits (decode w))

/-- R87: the ignored bits select nothing: whatever is flipped among them, the word decodes to the same instruction. The
spec's choice D12 (log 13). -/
def Obligations.IgnoredBitsSelectNothing : Prop :=
  ∀ w m : Word, decode (w ^^^ (m &&& ignoredBits (decode w))) = decode w

/-- R83: every word lies in exactly one row of the opcode table, the row of the instruction it decodes to. The row
numbers are the spec's choice D1 (log 7). -/
def Obligations.EveryWordHasOneRow : Prop :=
  ∀ w : Word,
    w &&& tableMask (decode w) = tableMatch (decode w) ∧
    ∀ i : Instr, w &&& tableMask i = tableMatch i → tableMatch i = tableMatch (decode w)

/-- R89: the reserved words are 0xD000 to 0xDFFF and no others. The spec's choices D1, D32 (log 7, log 13). -/
def Obligations.ReservedWordsExactly : Prop :=
  ∀ w : Word, decode w = .reserved ↔ 0xD000 ≤ w.toNat ∧ w.toNat ≤ 0xDFFF

/-! ## The step -/

/-- R92: a step fetches the word at the PC, advances the PC, decodes and dispatches. The wrap of the PC is the spec's
choice D8 (log 10). -/
def Obligations.StepRunsTheDecodedInstruction : Prop :=
  ∀ (s : State) (i : Instr), decode (s.memRead s.pc) = i → step s = exec i (s.setPc (s.pc + 1))

/-- R91: the word 0x0000 is a no-op that never fails, whatever the flag. A derived rule of the spec; it rests on D1, D2
for the encoding, D13 for nzp = 000 and D8 for the wrap (log 7, log 14, log 10). -/
def Obligations.ZeroWordIsNoOp : Prop :=
  ∀ s : State, s.memRead s.pc = 0 →
    ∃ t, step s = .next t ∧ JumpedTo (s.pc + 1) s t

/-! ## The instructions: encoding, effect, flags and frame, for every operand -/

/-- R121: ADD, register mode. Rests on D1 for the opcode and D4, D10 for the flag (log 7, log 8, log 12). -/
def Obligations.AddRegAdds : Prop :=
  ∀ (dr sr1 sr2 : RegIdx) (ignored : BitVec 2) (s : State),
    decode (0b0001#4 ++ dr ++ sr1 ++ 0b0#1 ++ ignored ++ sr2) = .addReg dr sr1 sr2 ∧
    ∃ t, exec (.addReg dr sr1 sr2) s = .next t ∧ ResultWritten dr (s.readReg sr1 + s.readReg sr2) s t

/-- R122: ADD, immediate mode. Rests on D1 for the opcode and D4, D10 for the flag (log 7, log 8, log 12). -/
def Obligations.AddImmAdds : Prop :=
  ∀ (dr sr1 : RegIdx) (imm5 : BitVec 5) (s : State),
    decode (0b0001#4 ++ dr ++ sr1 ++ 0b1#1 ++ imm5) = .addImm dr sr1 imm5 ∧
    ∃ t, exec (.addImm dr sr1 imm5) s = .next t ∧ ResultWritten dr (s.readReg sr1 + sext 5 imm5) s t

/-- R123: AND, register mode. Rests on D1 for the opcode and D4, D10 for the flag (log 7, log 8, log 12). -/
def Obligations.AndRegAnds : Prop :=
  ∀ (dr sr1 sr2 : RegIdx) (ignored : BitVec 2) (s : State),
    decode (0b0101#4 ++ dr ++ sr1 ++ 0b0#1 ++ ignored ++ sr2) = .andReg dr sr1 sr2 ∧
    ∃ t, exec (.andReg dr sr1 sr2) s = .next t ∧ ResultWritten dr (s.readReg sr1 &&& s.readReg sr2) s t

/-- R124: AND, immediate mode. Rests on D1 for the opcode and D4, D10 for the flag (log 7, log 8, log 12). -/
def Obligations.AndImmAnds : Prop :=
  ∀ (dr sr1 : RegIdx) (imm5 : BitVec 5) (s : State),
    decode (0b0101#4 ++ dr ++ sr1 ++ 0b1#1 ++ imm5) = .andImm dr sr1 imm5 ∧
    ∃ t, exec (.andImm dr sr1 imm5) s = .next t ∧ ResultWritten dr (s.readReg sr1 &&& sext 5 imm5) s t

/-- R125: NOT. Rests on D1, D2, D12 for the encoding and D4, D10 for the flag (log 7, log 13, log 8, log 12). -/
def Obligations.NotComplements : Prop :=
  ∀ (dr sr : RegIdx) (ignored : BitVec 6) (s : State),
    decode (0b1001#4 ++ dr ++ sr ++ ignored) = .not dr sr ∧
    ∃ t, exec (.not dr sr) s = .next t ∧ ResultWritten dr (~~~(s.readReg sr)) s t

/-- R143: LD. Rests on D1, D2 for the encoding, D8 for the wrap and D4, D10 for the flag (log 7, 10, 8, 12). -/
def Obligations.LdLoads : Prop :=
  ∀ (dr : RegIdx) (off9 : BitVec 9) (s : State),
    decode (0b0010#4 ++ dr ++ off9) = .ld dr off9 ∧
    ∃ t, exec (.ld dr off9) s = .next t ∧ ResultWritten dr (s.memRead (s.pc + sext 9 off9)) s t

/-- R144: ST. Rests on D1, D2 for the encoding and D8 for the wrap (log 7, log 10). -/
def Obligations.StStores : Prop :=
  ∀ (sr : RegIdx) (off9 : BitVec 9) (s : State),
    decode (0b0011#4 ++ sr ++ off9) = .st sr off9 ∧
    ∃ t, exec (.st sr off9) s = .next t ∧ Stored (s.pc + sext 9 off9) (s.readReg sr) s t

/-- R145: LDR; the base is read before DR is written. Rests on D1, D2, D8, D4, D10 (log 7, 10, 8, 12). -/
def Obligations.LdrLoads : Prop :=
  ∀ (dr base : RegIdx) (off6 : BitVec 6) (s : State),
    decode (0b0110#4 ++ dr ++ base ++ off6) = .ldr dr base off6 ∧
    ∃ t, exec (.ldr dr base off6) s = .next t ∧
      ResultWritten dr (s.memRead (s.readReg base + sext 6 off6)) s t

/-- R146: STR, under both settings of `StrOffsetWidth`, the spec's parameter of D3 (log 4): `ir[8:0]`, which is BaseR
followed by `ir[5:0]`, or `ir[5:0]` alone. Rests on D1, D2, D8 too (log 7, log 10). -/
def Obligations.StrStoresUnderBothWidths : Prop :=
  ∀ (sr base : RegIdx) (off6 : BitVec 6) (s : State),
    decode (0b0111#4 ++ sr ++ base ++ off6) = .str sr base off6 ∧
    ∃ t, exec (.str sr base off6) s = .next t ∧
      (s.strOffsetWidth = .nine → Stored (s.readReg base + sext 9 (base ++ off6)) (s.readReg sr) s t) ∧
      (s.strOffsetWidth = .six → Stored (s.readReg base + sext 6 off6) (s.readReg sr) s t)

/-- R146, corner cases: the two settings of the spec's parameter of D3 agree exactly when BaseR is three copies of
`ir[5]` (log 4). -/
def Obligations.StrWidthsAgreeExactlyWhen : Prop :=
  ∀ (base : RegIdx) (off6 : BitVec 6),
    strOffset .nine base off6 = strOffset .six base off6 ↔
      base = if off6.getLsbD 5 then 0b111#3 else 0b000#3

/-- R147: LDI, through the pointer. Rests on D1, D2, D8, D4, D10 (log 7, 10, 8, 12). -/
def Obligations.LdiLoadsThroughThePointer : Prop :=
  ∀ (dr : RegIdx) (off9 : BitVec 9) (s : State),
    decode (0b1010#4 ++ dr ++ off9) = .ldi dr off9 ∧
    ∃ t, exec (.ldi dr off9) s = .next t ∧
      ResultWritten dr (s.memRead (s.memRead (s.pc + sext 9 off9))) s t

/-- R148: STI, the pointer read before the write. Rests on D1, D2, D8 (log 7, log 10). -/
def Obligations.StiStoresThroughThePointer : Prop :=
  ∀ (sr : RegIdx) (off9 : BitVec 9) (s : State),
    decode (0b1011#4 ++ sr ++ off9) = .sti sr off9 ∧
    ∃ t, exec (.sti sr off9) s = .next t ∧ Stored (s.memRead (s.pc + sext 9 off9)) (s.readReg sr) s t

/-- R149: LEA, no memory access, flag updated. Rests on D1, D2, D8, D4, D10 (log 7, 10, 8, 12). -/
def Obligations.LeaComputesTheAddress : Prop :=
  ∀ (dr : RegIdx) (off9 : BitVec 9) (s : State),
    decode (0b1110#4 ++ dr ++ off9) = .lea dr off9 ∧
    ∃ t, exec (.lea dr off9) s = .next t ∧ ResultWritten dr (s.pc + sext 9 off9) s t

/-- R170, R171: BR branches always with nzp = 000, the flag not read (the spec's choice D13, log 14), and else when the
flag is one requested. Rests on D1, D2, D4, D8 too (log 7, log 8, log 10). -/
def Obligations.BrBranchesOnTheFlag : Prop :=
  ∀ (nzp : BitVec 3) (off9 : BitVec 9) (s : State),
    decode (0b0000#4 ++ nzp ++ off9) = .br nzp off9 ∧
    (nzp = 0 → ∃ t, exec (.br nzp off9) s = .next t ∧ JumpedTo (s.pc + sext 9 off9) s t) ∧
    (∀ f, nzp ≠ 0 → s.getFlag = .ok f →
      ∃ t, exec (.br nzp off9) s = .next t ∧
        JumpedTo (if nzp &&& f.bits = 0 then s.pc else s.pc + sext 9 off9) s t)

/-- R170, R171: BR with nzp ≠ 000 fails with status-word-decode when the flag pattern is undefined, even if a requested
bit is set in it. Which patterns are undefined rests on D4 (log 8). -/
def Obligations.BrFailsOnAnUndefinedFlag : Prop :=
  ∀ (nzp : BitVec 3) (off9 : BitVec 9) (s : State),
    nzp ≠ 0 → s.flagBits ≠ 0b001 → s.flagBits ≠ 0b010 → s.flagBits ≠ 0b100 →
    exec (.br nzp off9) s = .fault .statusWordDecode

/-- R172: JSR. Rests on D1, D2 for the encoding and D8 for the wrap (log 7, log 10). -/
def Obligations.JsrCalls : Prop :=
  ∀ (off11 : BitVec 11) (s : State),
    decode (0b01001#5 ++ off11) = .jsr off11 ∧
    ∃ t, exec (.jsr off11) s = .next t ∧ LinkedTo (s.pc + sext 11 off11) s t

/-- R173: JSRR; with BaseR = R7 the target is the old R7, the spec's choice D9 (log 11). Rests on D1, D12 too
(log 7, log 13). -/
def Obligations.JsrrCallsTheOldRegister : Prop :=
  ∀ (high : BitVec 2) (base : RegIdx) (low : BitVec 6) (s : State),
    decode (0b01000#5 ++ high ++ base ++ low) = .jsrr base ∧
    ∃ t, exec (.jsrr base) s = .next t ∧ LinkedTo (s.readReg base) s t

/-- R174: JMP. Rests on D1, D12 for the encoding (log 7, log 13). -/
def Obligations.JmpJumps : Prop :=
  ∀ (high : BitVec 3) (base : RegIdx) (low : BitVec 6) (s : State),
    decode (0b1100#4 ++ high ++ base ++ low) = .jmp base ∧
    ∃ t, exec (.jmp base) s = .next t ∧ JumpedTo (s.readReg base) s t

/-- R175: TRAP, in either mode; the PSW is not changed and nothing is pushed, the spec's choice D22 (log 18). Rests on
D1, D12 too (log 7, log 13). -/
def Obligations.TrapJumpsThroughTheVector : Prop :=
  ∀ (high : BitVec 4) (vect8 : BitVec 8) (s : State),
    decode (0b1111#4 ++ high ++ vect8) = .trap vect8 ∧
    ∃ t, exec (.trap vect8) s = .next t ∧ LinkedTo (s.memRead (zext 8 vect8)) s t

/-- R190: RTI in privileged mode pops the PC and the whole PSW, unchecked (the spec's choice D23, log 19); R6 wraps
(D8, log 10). Rests on D1, D12 too (log 7, log 13). -/
def Obligations.RtiPopsTheFrame : Prop :=
  ∀ (ignored : BitVec 12) (s : State),
    decode (0b1000#4 ++ ignored) = .rti ∧
    (s.psw.getLsbD 15 = false → ∃ t, exec .rti s = .next t ∧ FramePopped s t)

/-- R190: RTI in user mode fails with the illegal-privilege-transition error. -/
def Obligations.RtiFailsInUserMode : Prop :=
  ∀ s : State, s.psw.getLsbD 15 = true → exec .rti s = .fault .illegalPrivilegeTransition

/-- R191: every word of opcode 1101 decodes to RESERVED and executing it fails with the reserved-opcode error, in either
mode; after the failed step only the PC has moved. Rests on D1 for the opcode (log 7), D12 and D32 for the whole opcode
being reserved (log 13), D14 for the PC (log 15) and D8 for its wrap (log 10). -/
def Obligations.ReservedAlwaysFails : Prop :=
  ∀ (ignored : BitVec 12) (s : State),
    decode (0b1101#4 ++ ignored) = .reserved ∧ exec .reserved s = .fault .reservedOpcode ∧
    (s.memRead s.pc = 0b1101#4 ++ ignored →
      step s = .fault .reservedOpcode ∧ JumpedTo (s.pc + 1) s (afterStep s))

/-! ## The whole machine -/

/-- R200, R206: the errors of a handler, exactly: RESERVED always, RTI in user mode, BR with nzp ≠ 000 on an undefined
flag, and no other error of any instruction; and no instruction is refused. The flag patterns rest on D4 (log 8), and
that nzp = 000 never fails on D13 (log 14). -/
def Obligations.ErrorsExactly : Prop :=
  ∀ (i : Instr) (s : State),
    (∀ k, exec i s = .fault k ↔
      (k = .reservedOpcode ∧ i = .reserved) ∨
      (k = .illegalPrivilegeTransition ∧ i = .rti ∧ s.getMode = .user) ∨
      (k = .statusWordDecode ∧ s.getFlag = .error .statusWordDecode ∧ ∃ nzp off9, nzp ≠ 0 ∧ i = .br nzp off9)) ∧
    (∀ r, exec i s ≠ .refused r)

/-- R202, R203: after a failed step the PC is the failing address plus one and everything else is as before. The PC is
the spec's choice D14 (log 15), its wrap D8 (log 10). -/
def Obligations.FailedStepMovesOnlyThePc : Prop :=
  ∀ (s : State) (k : Fault), step s = .fault k → JumpedTo (s.pc + 1) s (afterStep s)

/-- R30: the flag-updating instructions are exactly ADD, AND, NOT, LD, LDR, LDI and LEA, each with the condition code of
the register it wrote. By R190, RTI replaces the whole PSW with the word at R6 + 1, unchecked (D23, log 19), the sum
wrapping (D8, log 10). No other instruction changes the PSW; for TRAP that is the spec's choice D22 (log 18). The flag's
bits rest on D4 (log 8). -/
def Obligations.FlagUpdatersExactly : Prop :=
  ∀ (i : Instr) (s t : State), exec i s = .next t →
    (∀ dr, flagDest i = some dr → t.getFlag = .ok (cc (t.readReg dr))) ∧
    (i = .rti → t.psw = s.memRead (s.readReg 6 + 1)) ∧
    (flagDest i = none → i ≠ .rti → t.psw = s.psw)

/-- R27: the unassigned bits, like the mode and the priority, are changed by no instruction but RTI. That update_flag
preserves them is the spec's choice D10, D11 (log 12), and that TRAP leaves them D22 (log 18). -/
def Obligations.OnlyRtiWritesTheUpperPsw : Prop :=
  ∀ (i : Instr) (s t : State), i ≠ .rti → exec i s = .next t →
    ∀ k < 16, 3 ≤ k → t.psw.getLsbD k = s.psw.getLsbD k

/-- R31: once the flag is defined, a step that is not an RTI leaves it defined. A derived rule of the spec; the patterns
rest on D4 (log 8), and that TRAP leaves the flag on D22 (log 18). -/
def Obligations.FlagStaysDefinedWithoutRti : Prop :=
  ∀ s t : State, FlagDefined s → decode (s.memRead s.pc) ≠ .rti → step s = .next t → FlagDefined t

/-- R211: in user mode every instruction executes identically, except RTI, which fails there and executes in privileged
mode. Flipping the mode bit before an instruction is flipping it after. That the mode restricts no access to memory is
the spec's choice D31 (log 23), and that TRAP works alike in both modes D22 (log 18). -/
def Obligations.ModeMattersOnlyToRti : Prop :=
  ∀ (i : Instr) (s : State),
    (i ≠ .rti → exec i (flipMode s) = mapNext flipMode (exec i s)) ∧
    (s.getMode = .privileged → ∃ t, exec .rti s = .next t) ∧
    (s.getMode = .user → exec .rti s = .fault .illegalPrivilegeTransition)

/-- R212: a program in user mode can never return to privileged mode by itself. A derived rule of the spec; it rests on
D22 for TRAP (log 18). -/
def Obligations.UserModeIsNeverLeft : Prop :=
  ∀ s t : State, InUserMode s → step s = .next t → InUserMode t

/-- The memory keeps its canonical form under every step, from every state that has it (the model's form, log 3). -/
def Obligations.StepKeepsMemoryCanonical : Prop :=
  ∀ s t : State, Canonical s → step s = .next t → Canonical t

/-- The memory has its canonical form at reset (the model's form, log 3). -/
def Obligations.ResetMemoryIsCanonical : Prop :=
  Canonical State.reset

/-- R6: `StrOffsetWidth` is a parameter: no step changes it. That the state carries it is the model's choice (log 4). -/
def Obligations.StrOffsetWidthIsFixed : Prop :=
  ∀ s t : State, step s = .next t → SameParams s t

/-! ## The loader and the driving loop -/

/-- R231: the program's words stand contiguously from the origin on, in program order, the PC is the origin, no other
word and no other register is touched; with no image the PC is the default boot address, which the spec leaves open,
D7 (log 5), and nothing else changes. A program that would run past 0xFFFF is loaded as the open parameter
`LoaderEdge` says, D17 (log 6): the statement holds for every value of it. -/
def Obligations.LoaderWritesTheProgram : Prop :=
  ∀ (origin : Word) (ws : List Word) (s : State),
    (origin.toNat + ws.length ≤ 65536 →
      ∃ t, loadProgram origin ws s = .next t ∧ t.pc = origin ∧ SameRegs s t ∧ t.psw = s.psw ∧
        (∀ (k : Nat) (h : k < ws.length), t.memRead (origin + BitVec.ofNat 16 k) = ws[k]) ∧
        (∀ a : Word, a.toNat < origin.toNat ∨ origin.toNat + ws.length ≤ a.toNat →
          t.memRead a = s.memRead a)) ∧
    (65536 < origin.toNat + ws.length →
      FollowsLoaderEdge (imageBytes (origin :: ws)) s (loadProgram origin ws s)) ∧
    ∃ t, bootDefault s = .next t ∧ JumpedTo Config.defaultBootPC s t

/-- R204, R235: a failed step is surfaced to the driving loop with its error, no further step follows it, and the abort
changes no register or memory word. That other host actions are refused is the spec's choice D28 (log 17). -/
def Obligations.NoStepAfterAFailure : Prop :=
  ∀ (x : Session) (k : Fault), x.phase = .loading ∨ x.phase = .running → step x.block = .fault k →
    ∃ y z, hostAct .step x = .next y ∧ y.phase = .failed k ∧ y.block = afterStep x.block ∧
      hostAct .step y = .refused .hostAction ∧
      hostAct .abort y = .next z ∧ z.block = y.block ∧ hostAct .step z = .refused .hostAction

/-- R94: no instruction halts the engine: a successful step leaves it ready for the next one. The loop's phases are the
model's (log 17). -/
def Obligations.SuccessLeavesTheEngineReady : Prop :=
  ∀ (x : Session) (t : State), x.phase = .loading ∨ x.phase = .running → step x.block = .next t →
    ∃ y, hostAct .step x = .next y ∧ y.block = t ∧ ∃ z, hostAct .step y = .next z

/-- R232: an image is big-endian words, the first the origin, all others the program. An image of an odd number of bytes
and the empty one are loaded as the open parameter `LoaderEdge` says, D17 (log 6): the statement holds for every value
of it. -/
def Obligations.ImageIsBigEndianWords : Prop :=
  ∀ (s : State),
    (∀ (origin : Word) (ws : List Word),
      loadImage ((origin :: ws).flatMap fun w => [w.extractLsb' 8 8, w.extractLsb' 0 8]) s =
        loadProgram origin ws s) ∧
    (∀ bytes : List Byte, bytes.length % 2 = 1 ∨ bytes = [] → FollowsLoaderEdge bytes s (loadImage bytes s))
end

