-- ==== Sys2Proof/Machine/Assembler.lean ====
section
/-! DEFINITION. The spec's assembler syntax and what each line encodes (30_encoding R95, R96). Notation only: the
encodings are what is normative (92 D25; log 26). -/

namespace Sys2Proof.Machine

/-- A line of assembly with its operands as written: register numbers, decimal immediates, labels as the addresses they
stand for (00_scope R11, 30_encoding R95). RESERVED has no syntax. -/
inductive AsmLine where
  | addReg (dr sr1 sr2 : Nat)
  | addImm (dr sr1 : Nat) (imm : Int)
  | andReg (dr sr1 sr2 : Nat)
  | andImm (dr sr1 : Nat) (imm : Int)
  | not (dr sr : Nat)
  | ld (dr : Nat) (label : Word)
  | ldi (dr : Nat) (label : Word)
  | lea (dr : Nat) (label : Word)
  | st (sr : Nat) (label : Word)
  | sti (sr : Nat) (label : Word)
  | ldr (dr base : Nat) (off : Int)
  | str (sr base : Nat) (off : Int)
  /-- `BR`, with the condition bits its suffix names; without a suffix none is set (R95). -/
  | br (n z p : Bool) (label : Word)
  | jsr (label : Word)
  | jsrr (base : Nat)
  | jmp (base : Nat)
  /-- `RET`, which stands for `JMP R7` (R96). -/
  | ret
  | rti
  | trap (vect : Nat)
  /-- `.FILL`, one data word. -/
  | fill (v : Word)
  deriving DecidableEq, Repr

/-- A register number is 0 to 7 (R84). -/
def asmReg (r : Nat) : Option RegIdx := if r < 8 then some (BitVec.ofNat 3 r) else none

/-- A signed operand that the field of `n` bits can hold (the value ranges of R85). -/
def asmSigned (n : Nat) (v : Int) : Option (BitVec n) :=
  if -(2 ^ (n - 1) : Int) ≤ v ∧ v < 2 ^ (n - 1) then some (BitVec.ofInt n v) else none

/-- A trap vector is 0x00 to 0xFF (R85). -/
def asmVect (v : Nat) : Option (BitVec 8) := if v < 256 then some (BitVec.ofNat 8 v) else none

/-- The offset of a label: label minus the address of the instruction plus one, read as signed (R95), where it is in
reach. -/
def asmOffset (n : Nat) (addr label : Word) : Option (BitVec n) := asmSigned n (label - (addr + 1)).toInt

/-- The instruction a line at an address stands for (R95, R96); none for `.FILL` and for an operand out of range. -/
def assembleInstr (addr : Word) : AsmLine → Option Instr
  | .addReg dr sr1 sr2 => do return .addReg (← asmReg dr) (← asmReg sr1) (← asmReg sr2)
  | .addImm dr sr1 imm => do return .addImm (← asmReg dr) (← asmReg sr1) (← asmSigned 5 imm)
  | .andReg dr sr1 sr2 => do return .andReg (← asmReg dr) (← asmReg sr1) (← asmReg sr2)
  | .andImm dr sr1 imm => do return .andImm (← asmReg dr) (← asmReg sr1) (← asmSigned 5 imm)
  | .not dr sr => do return .not (← asmReg dr) (← asmReg sr)
  | .ld dr label => do return .ld (← asmReg dr) (← asmOffset 9 addr label)
  | .ldi dr label => do return .ldi (← asmReg dr) (← asmOffset 9 addr label)
  | .lea dr label => do return .lea (← asmReg dr) (← asmOffset 9 addr label)
  | .st sr label => do return .st (← asmReg sr) (← asmOffset 9 addr label)
  | .sti sr label => do return .sti (← asmReg sr) (← asmOffset 9 addr label)
  | .ldr dr base off => do return .ldr (← asmReg dr) (← asmReg base) (← asmSigned 6 off)
  | .str sr base off => do return .str (← asmReg sr) (← asmReg base) (← asmSigned 6 off)
  | .br n z p label => do return .br (BitVec.ofBool n ++ BitVec.ofBool z ++ BitVec.ofBool p) (← asmOffset 9 addr label)
  | .jsr label => do return .jsr (← asmOffset 11 addr label)
  | .jsrr base => do return .jsrr (← asmReg base)
  | .jmp base => do return .jmp (← asmReg base)
  | .ret => some (.jmp linkReg)
  | .rti => some .rti
  | .trap vect => do return .trap (← asmVect vect)
  | .fill _ => none

/-- The word a line at an address encodes (R95). -/
def assembleWord (addr : Word) (line : AsmLine) : Option Word :=
  match line with
  | .fill v => some v
  | .addReg _ _ _ | .addImm _ _ _ | .andReg _ _ _ | .andImm _ _ _ | .not _ _ | .ld _ _ | .ldi _ _ | .lea _ _
  | .st _ _ | .sti _ _ | .ldr _ _ _ | .str _ _ _ | .br _ _ _ _ | .jsr _ | .jsrr _ | .jmp _ | .ret | .rti
  | .trap _ => (assembleInstr addr line).map encode

/-- The words of a program's lines from its origin on, the origin being `.ORIG`'s word (R95, 70_reset R232). -/
def assembleProgram (origin : Word) : List AsmLine → Option (List Word)
  | [] => some []
  | line :: rest =>
    match assembleWord origin line, assembleProgram (origin + 1) rest with
    | some w, some ws => some (w :: ws)
    | some _, none => none
    | none, _ => none

end Sys2Proof.Machine
end

