-- ==== Sys2Proof/Laws/Assembler.lean ====
section
/-! SUPPORT. The assembler writes only well-formed instructions: RESERVED has no syntax (30_encoding R95). -/

namespace Sys2Proof.Machine

theorem assembleInstr_wellFormed (addr : Word) (line : AsmLine) (i : Instr) (h : assembleInstr addr line = some i) :
    i.wellFormed = true := by
  cases line <;> simp only [assembleInstr, Option.bind_eq_bind, Option.bind_eq_some_iff, Option.pure_def,
    Option.some.injEq, reduceCtorEq] at h
  case ret => subst h; rfl
  case rti => subst h; rfl
  all_goals (obtain ⟨_, -, _, -, _, -, rfl⟩ := h; rfl)

end Sys2Proof.Machine
end

