-- ==== Sys2Proof/Laws/State.lean ====
section
/-! SUPPORT. What each update of the state leaves in each field: one lemma per field per update. -/

namespace Sys2Proof.Machine

variable (s : State) (i r : RegIdx) (a v : Word)

/-! ## A register written -/

@[simp] theorem writeReg_pc : (s.writeReg i v).pc = s.pc := rfl
@[simp] theorem writeReg_psw : (s.writeReg i v).psw = s.psw := rfl
@[simp] theorem writeReg_mem : (s.writeReg i v).mem = s.mem := rfl
@[simp] theorem writeReg_strOffsetWidth : (s.writeReg i v).strOffsetWidth = s.strOffsetWidth := rfl
@[simp] theorem memRead_writeReg : (s.writeReg i v).memRead a = s.memRead a := rfl

@[simp] theorem readReg_writeReg_same : (s.writeReg i v).readReg i = v := by
  simp [State.readReg, State.writeReg]

theorem readReg_writeReg_ne (h : r ≠ i) : (s.writeReg i v).readReg r = s.readReg r := by
  have hn : i.toNat ≠ r.toNat := fun e => h (BitVec.eq_of_toNat_eq e.symm)
  simp [State.readReg, State.writeReg, hn]

/-! ## The program counter written -/

@[simp] theorem setPc_pc : (s.setPc v).pc = v := rfl
@[simp] theorem setPc_psw : (s.setPc v).psw = s.psw := rfl
@[simp] theorem setPc_mem : (s.setPc v).mem = s.mem := rfl
@[simp] theorem setPc_strOffsetWidth : (s.setPc v).strOffsetWidth = s.strOffsetWidth := rfl
@[simp] theorem readReg_setPc : (s.setPc v).readReg r = s.readReg r := rfl
@[simp] theorem memRead_setPc : (s.setPc v).memRead a = s.memRead a := rfl

/-! ## The processor status word written -/

@[simp] theorem setPsw_pc : (s.setPsw v).pc = s.pc := rfl
@[simp] theorem setPsw_psw : (s.setPsw v).psw = v := rfl
@[simp] theorem setPsw_mem : (s.setPsw v).mem = s.mem := rfl
@[simp] theorem setPsw_strOffsetWidth : (s.setPsw v).strOffsetWidth = s.strOffsetWidth := rfl
@[simp] theorem readReg_setPsw : (s.setPsw v).readReg r = s.readReg r := rfl
@[simp] theorem memRead_setPsw : (s.setPsw v).memRead a = s.memRead a := rfl

/-! ## A memory word written (its effect on memory: Laws/Memory.lean) -/

@[simp] theorem memWrite_pc : (s.memWrite a v).pc = s.pc := rfl
@[simp] theorem memWrite_psw : (s.memWrite a v).psw = s.psw := rfl
@[simp] theorem memWrite_mem : (s.memWrite a v).mem = memStore s.mem a.toNat v := rfl
@[simp] theorem memWrite_strOffsetWidth : (s.memWrite a v).strOffsetWidth = s.strOffsetWidth := rfl
@[simp] theorem readReg_memWrite : (s.memWrite a v).readReg r = s.readReg r := rfl

/-! ## The flag written -/

variable (f : CondCode) (n : RegName)

@[simp] theorem setFlag_pc : (s.setFlag f).pc = s.pc := rfl
@[simp] theorem setFlag_mem : (s.setFlag f).mem = s.mem := rfl
@[simp] theorem setFlag_strOffsetWidth : (s.setFlag f).strOffsetWidth = s.strOffsetWidth := rfl
@[simp] theorem readReg_setFlag : (s.setFlag f).readReg r = s.readReg r := rfl
@[simp] theorem memRead_setFlag : (s.setFlag f).memRead a = s.memRead a := rfl

@[simp] theorem updateFlag_pc : (s.updateFlag n).pc = s.pc := rfl
@[simp] theorem updateFlag_mem : (s.updateFlag n).mem = s.mem := rfl
@[simp] theorem updateFlag_strOffsetWidth : (s.updateFlag n).strOffsetWidth = s.strOffsetWidth := rfl
@[simp] theorem readReg_updateFlag : (s.updateFlag n).readReg r = s.readReg r := rfl
@[simp] theorem memRead_updateFlag : (s.updateFlag n).memRead a = s.memRead a := rfl

end Sys2Proof.Machine
end

