-- ==== Sys2Proof/Laws/Flags.lean ====
section
/-! SUPPORT. What the flag operations do to the processor status word. -/

namespace Sys2Proof.Machine

theorem flagOfBits_bits (f : CondCode) : flagOfBits f.bits = some f := by cases f <;> rfl

theorem flagBits_append (u : BitVec 13) (b : BitVec 3) : (u ++ b : BitVec 16).extractLsb' 0 3 = b := by
  ext k hk
  have h := BitVec.getLsbD_append (x := u) (y := b) (i := k)
  simp only [hk, if_true] at h
  simpa [BitVec.getLsbD_eq_getElem hk] using h

theorem upper_append (u : BitVec 13) (b : BitVec 3) : (u ++ b : BitVec 16).extractLsb' 3 13 = u := by
  ext k hk
  have h := BitVec.getLsbD_append (x := u) (y := b) (i := 3 + k)
  simp only [show ¬ 3 + k < 3 by omega, if_false, Nat.add_sub_cancel_left] at h
  simpa [hk] using h

@[simp] theorem setFlag_upper (s : State) (f : CondCode) :
    (s.setFlag f).psw.extractLsb' 3 13 = s.psw.extractLsb' 3 13 := upper_append _ _

@[simp] theorem setFlag_flagBits (s : State) (f : CondCode) : (s.setFlag f).flagBits = f.bits := flagBits_append _ _

@[simp] theorem getFlag_setFlag (s : State) (f : CondCode) : (s.setFlag f).getFlag = .ok f := by
  simp [State.getFlag, flagOfBits_bits]

@[simp] theorem updateFlag_upper (s : State) (n : RegName) :
    (s.updateFlag n).psw.extractLsb' 3 13 = s.psw.extractLsb' 3 13 := setFlag_upper _ _

@[simp] theorem getFlag_updateFlag (s : State) (n : RegName) : (s.updateFlag n).getFlag = .ok (cc (s.read n)) :=
  getFlag_setFlag _ _

/-- `get_flag` has one way to fail. -/
theorem getFlag_error (s : State) (k : Fault) (h : s.getFlag = .error k) : k = .statusWordDecode := by
  unfold State.getFlag at h
  split at h <;> simp_all

end Sys2Proof.Machine
end

