-- ==== Sys2Proof/Laws/Memory.lean ====
section
/-! SUPPORT. The laws of memory: a read after a write, and that every memory operation keeps the canonical form. -/

namespace Sys2Proof.Machine

theorem memLookup_memStore (m : List WordCell) (a b : Nat) (v : Word) :
    memLookup (memStore m a v) b = if b = a then some v else memLookup m b := by
  induction m with
  | nil => rfl
  | cons c rest ih =>
    obtain ⟨k, w⟩ := c
    simp only [memStore]
    split
    · rfl
    · split <;> rename_i h
      · subst h
        simp only [memLookup]
        split <;> rfl
      · simp only [memLookup, ih]
        by_cases hb : b = k
        · have : b ≠ a := fun e => h (e.symm.trans hb)
          simp [hb, show k ≠ a from fun e => h e.symm]
        · simp [hb]

theorem memRead_memWrite (s : State) (a b v : Word) :
    (s.memWrite a v).memRead b = if b = a then v else s.memRead b := by
  simp only [State.memRead, memWrite_mem, memLookup_memStore, BitVec.toNat_inj]
  by_cases h : b = a <;> simp [h]

@[simp] theorem memRead_memWrite_same (s : State) (a v : Word) : (s.memWrite a v).memRead a = v := by
  simp [memRead_memWrite]

theorem memRead_memWrite_ne (s : State) (a b v : Word) (h : b ≠ a) :
    (s.memWrite a v).memRead b = s.memRead b := by
  simp [memRead_memWrite, h]

theorem memWfFrom_memStore (m : List WordCell) (lo a : Nat) (v : Word) (hlo : lo ≤ a) (ha : a < 65536)
    (h : memWfFrom lo m = true) : memWfFrom lo (memStore m a v) = true := by
  induction m generalizing lo with
  | nil => simp [memStore, memWfFrom, hlo, ha]
  | cons c rest ih =>
    obtain ⟨k, w⟩ := c
    simp only [memWfFrom, Bool.and_eq_true, decide_eq_true_eq] at h
    obtain ⟨⟨hk, hk'⟩, hrest⟩ := h
    simp only [memStore]
    split
    · simp [memWfFrom, hlo, ha, hk', hrest]
      omega
    · split <;> rename_i h1
      · subst h1
        simp [memWfFrom, hlo, ha, hrest]
      · simp [memWfFrom, hk, hk', ih (k + 1) (by omega) hrest]

/-- The one operation that changes the memory keeps its canonical form, and so does the loader, which only calls it. -/
theorem memWf_memWrite (s : State) (a v : Word) (h : memWf s.mem = true) : memWf (s.memWrite a v).mem = true :=
  memWfFrom_memStore s.mem 0 a.toNat v (Nat.zero_le _) a.isLt h

theorem memWf_writeWords (ws : List Word) (a : Word) (s : State) (h : memWf s.mem = true) :
    memWf (writeWords a ws s).mem = true := by
  induction ws generalizing a s with
  | nil => exact h
  | cons w ws ih => exact ih (a + 1) (s.memWrite a w) (memWf_memWrite s a w h)

theorem memWf_writePairs (ps : List (Word × Word)) (s : State) (h : memWf s.mem = true) :
    memWf (writePairs ps s).mem = true := by
  induction ps generalizing s with
  | nil => exact h
  | cons p ps ih => exact ih (s.memWrite p.1 p.2) (memWf_memWrite s p.1 p.2 h)

theorem memWf_reset : memWf State.reset.mem = true := rfl

end Sys2Proof.Machine
end

