-- ==== Sys2Proof/Laws/Ops.lean ====
section
/-! SUPPORT. One lemma per shared operation, saying all it does, and the one case analysis of a handler's success. -/

namespace Sys2Proof.Machine

/-! ## The five effects -/

theorem writeResult_spec (dr : RegIdx) (v : Word) (s : State) : ResultWritten dr v s (writeResult dr v s) := by
  refine ⟨by simp [writeResult], fun r hr => ?_, rfl, ⟨?_, ?_⟩, fun a => rfl, rfl⟩
  · simpa [writeResult] using readReg_writeReg_ne s dr r v hr
  · simp [writeResult, State.read]
  · simp [writeResult]

theorem memWrite_spec (a v : Word) (s : State) : Stored a v s (s.memWrite a v) :=
  ⟨memRead_memWrite_same s a v, fun b hb => memRead_memWrite_ne s a b v hb, fun _ => rfl, rfl, rfl, rfl⟩

theorem setPc_spec (target : Word) (s : State) : JumpedTo target s (s.setPc target) :=
  ⟨rfl, fun _ => rfl, rfl, fun _ => rfl, rfl⟩

theorem linkAndJump_spec (target : Word) (s : State) : LinkedTo target s (linkAndJump target s) :=
  ⟨readReg_writeReg_same s linkReg s.pc, rfl, fun r hr => readReg_writeReg_ne s linkReg r s.pc hr, rfl,
    fun _ => rfl, rfl⟩

theorem popFrame_spec (s : State) : FramePopped s (popFrame s) :=
  ⟨rfl, rfl, readReg_writeReg_same s frameReg _, fun r hr => readReg_writeReg_ne s frameReg r _ hr, fun _ => rfl, rfl⟩

/-! ## The loader's edge images -/

theorem writePairs_written (ps : List (Word × Word)) (s : State) : PairsWritten ps s (writePairs ps s) := by
  induction ps generalizing s with
  | nil => exact fun _ => rfl
  | cons p ps ih =>
    intro a
    have h := ih (s.memWrite p.1 p.2) a
    rw [memRead_memWrite] at h
    show if _ then (a, (writePairs ps (s.memWrite p.1 p.2)).memRead a) ∈ p :: ps else
      (writePairs ps (s.memWrite p.1 p.2)).memRead a = s.memRead a
    by_cases hin : a ∈ ps.map Prod.fst <;> by_cases he : a = p.1 <;> simp_all

theorem writePairs_registers (ps : List (Word × Word)) (s : State) :
    SameRegs s (writePairs ps s) ∧ (writePairs ps s).psw = s.psw ∧ SameParams s (writePairs ps s) := by
  induction ps generalizing s with
  | nil => exact ⟨fun _ => rfl, rfl, rfl⟩
  | cons p ps ih => exact ih (s.memWrite p.1 p.2)

theorem loadEdge_spec (bytes : List Byte) (s : State) : FollowsLoaderEdge bytes s (loadEdge bytes s) := by
  unfold FollowsLoaderEdge loadEdge
  cases Config.loaderEdge bytes with
  | none => rfl
  | some r => exact ⟨_, rfl, writePairs_written r.writes s, rfl, writePairs_registers r.writes s⟩

/-! ## The fetch -/

@[simp] theorem fetch_word (s : State) : (fetch s).1 = s.memRead s.pc := rfl
@[simp] theorem fetch_state (s : State) : (fetch s).2 = s.setPc (s.pc + 1) := rfl

/-! ## The branch condition -/

theorem branchTaken_always (s : State) : branchTaken 0 s = .ok true := rfl

theorem branchTaken_defined (nzp : BitVec 3) (s : State) (f : CondCode) (hn : nzp ≠ 0) (hf : s.getFlag = .ok f) :
    branchTaken nzp s = .ok (decide (nzp &&& f.bits ≠ 0)) := by
  rw [branchTaken, if_neg hn, hf]

theorem branchTaken_error (nzp : BitVec 3) (s : State) (k : Fault) (h : branchTaken nzp s = .error k) :
    k = .statusWordDecode ∧ nzp ≠ 0 ∧ s.getFlag = .error .statusWordDecode := by
  unfold branchTaken at h
  split at h
  · cases h
  · split at h
    · cases h
    · rename_i hn _ e he
      have := getFlag_error s e he
      simp_all

/-! ## The success of a handler -/

/-- What a handler that succeeds has done: one of five effects, on the register or at the address the instruction
names. -/
theorem exec_next (i : Instr) (s t : State) (h : exec i s = .next t) :
    (∃ dr v, flagDest i = some dr ∧ regDest i = some dr ∧ storeAddr i s = none ∧ t = writeResult dr v s) ∨
    (∃ a v, flagDest i = none ∧ regDest i = none ∧ storeAddr i s = some a ∧ t = s.memWrite a v) ∨
    (∃ target, flagDest i = none ∧ regDest i = none ∧ storeAddr i s = none ∧ t = s.setPc target) ∨
    (∃ target, flagDest i = none ∧ regDest i = some 7 ∧ storeAddr i s = none ∧ t = linkAndJump target s) ∨
    (i = .rti ∧ s.getMode = .privileged ∧ t = popFrame s) := by
  cases i with
  | br nzp off9 =>
    simp only [exec, execBr] at h
    refine .inr (.inr (.inl ?_))
    split at h
    · exact ⟨_, rfl, rfl, rfl, by cases h; rfl⟩
    · exact ⟨s.pc, rfl, rfl, rfl, by cases h; rfl⟩
    · cases h
  | st _ _ => exact .inr (.inl ⟨_, _, rfl, rfl, rfl, by cases h; rfl⟩)
  | str _ _ _ => exact .inr (.inl ⟨_, _, rfl, rfl, rfl, by cases h; rfl⟩)
  | sti _ _ => exact .inr (.inl ⟨_, _, rfl, rfl, rfl, by cases h; rfl⟩)
  | jmp _ => exact .inr (.inr (.inl ⟨_, rfl, rfl, rfl, by cases h; rfl⟩))
  | jsr _ => exact .inr (.inr (.inr (.inl ⟨_, rfl, rfl, rfl, by cases h; rfl⟩)))
  | jsrr _ => exact .inr (.inr (.inr (.inl ⟨_, rfl, rfl, rfl, by cases h; rfl⟩)))
  | trap _ => exact .inr (.inr (.inr (.inl ⟨_, rfl, rfl, rfl, by cases h; rfl⟩)))
  | rti =>
    simp only [exec, execRti] at h
    split at h
    · cases h
    · exact .inr (.inr (.inr (.inr ⟨rfl, ‹_›, by cases h; rfl⟩)))
  | reserved => cases h
  | _ => exact .inl ⟨_, _, rfl, rfl, rfl, by cases h; rfl⟩

/-- What a storing instruction does, on every state: it stores its source register at the address it names. -/
theorem exec_store (i : Instr) (s : State) (a : Word) (sr : RegIdx) (ha : storeAddr i s = some a)
    (hs : storeSource i = some sr) : exec i s = .next (s.memWrite a (s.readReg sr)) := by
  cases i <;> cases ha <;> cases hs <;> rfl

/-- No handler is refused: every instruction has its meaning. -/
theorem exec_ne_refused (i : Instr) (s : State) (r : Refusal) : exec i s ≠ .refused r := by
  cases i with
  | br nzp off9 => simp only [exec, execBr]; split <;> simp [ok, raise]
  | rti => simp only [exec, execRti]; split <;> simp [ok, raise]
  | _ => intro h; cases h

end Sys2Proof.Machine
end

