-- ==== Sys2Proof/Laws/PerInstr.lean ====
section
/-! SUPPORT. The family TableRow: the canonical word of an instruction lies in its row of spec/opcode_table.json, that
is, under the row's mask it is the row's match (30_encoding R88). First the shapes of R88 the rows share. -/

namespace Sys2Proof.Laws.TableRow

def Statement (i : Instr) : Prop := encode i &&& tableMask i = tableMatch i

/-- Under the mask of the opcode, a word `oooo rrr iiiiiiiii` is its opcode. -/
theorem opcode_of_off9 (op : BitVec 4) (r : BitVec 3) (off9 : BitVec 9) :
    (op ++ r ++ off9 : Word) &&& 0xF000 = op ++ 0#12 := by
  refine BitVec.eq_of_getLsbD_eq fun k hk => ?_
  rw [BitVec.getLsbD_and, BitVec.getLsbD_append, BitVec.getLsbD_append, BitVec.getLsbD_append]
  interval_cases k <;> simp

/-- Under the mask of the opcode, a word `oooo rrr sss iiiiii` is its opcode. -/
theorem opcode_of_off6 (op : BitVec 4) (r b : BitVec 3) (off6 : BitVec 6) :
    (op ++ r ++ b ++ off6 : Word) &&& 0xF000 = op ++ 0#12 := by
  refine BitVec.eq_of_getLsbD_eq fun k hk => ?_
  rw [BitVec.getLsbD_and, BitVec.getLsbD_append, BitVec.getLsbD_append, BitVec.getLsbD_append, BitVec.getLsbD_append]
  interval_cases k <;> simp

/-- Under the mask of the opcode and bit 5, a word `oooo rrr sss 000 ttt` is its opcode. -/
theorem opcode_of_reg (op : BitVec 4) (r a b : BitVec 3) :
    (op ++ r ++ a ++ 0b000#3 ++ b : Word) &&& 0xF020 = op ++ 0#12 := by
  refine BitVec.eq_of_getLsbD_eq fun k hk => ?_
  rw [BitVec.getLsbD_and, BitVec.getLsbD_append, BitVec.getLsbD_append, BitVec.getLsbD_append,
    BitVec.getLsbD_append, BitVec.getLsbD_append]
  interval_cases k <;> simp

/-- Under the mask of the opcode and bit 5, a word `oooo rrr sss 1 iiiii` is its opcode and bit 5. -/
theorem opcode_of_imm (op : BitVec 4) (r a : BitVec 3) (imm5 : BitVec 5) :
    (op ++ r ++ a ++ 0b1#1 ++ imm5 : Word) &&& 0xF020 = op ++ 0x020#12 := by
  refine BitVec.eq_of_getLsbD_eq fun k hk => ?_
  rw [BitVec.getLsbD_and, BitVec.getLsbD_append, BitVec.getLsbD_append, BitVec.getLsbD_append,
    BitVec.getLsbD_append, BitVec.getLsbD_append]
  interval_cases k <;> simp

/-- Under a mask of its seven high bits at most, a word `ooooooo sss 000000` is those bits. -/
theorem opcode_of_base (op : BitVec 7) (b : BitVec 3) :
    (op ++ b ++ 0b000000#6 : Word) &&& 0xFE00 = op ++ 0#9 := by
  refine BitVec.eq_of_getLsbD_eq fun k hk => ?_
  rw [BitVec.getLsbD_and, BitVec.getLsbD_append, BitVec.getLsbD_append, BitVec.getLsbD_append]
  interval_cases k <;> simp

/-- A mask within a wider mask, of a word known under the wider one. -/
theorem under_mask (w m m' v : Word) (h : w &&& m = v) (hm : m &&& m' = m') : w &&& m' = v &&& m' := by
  rw [← h, BitVec.and_assoc, hm]

theorem br (nzp : BitVec 3) (off9 : BitVec 9) : Statement (.br nzp off9) := opcode_of_off9 _ _ _
theorem ld (dr : RegIdx) (off9 : BitVec 9) : Statement (.ld dr off9) := opcode_of_off9 _ _ _
theorem st (sr : RegIdx) (off9 : BitVec 9) : Statement (.st sr off9) := opcode_of_off9 _ _ _
theorem ldi (dr : RegIdx) (off9 : BitVec 9) : Statement (.ldi dr off9) := opcode_of_off9 _ _ _
theorem sti (sr : RegIdx) (off9 : BitVec 9) : Statement (.sti sr off9) := opcode_of_off9 _ _ _
theorem lea (dr : RegIdx) (off9 : BitVec 9) : Statement (.lea dr off9) := opcode_of_off9 _ _ _
theorem ldr (dr base : RegIdx) (off6 : BitVec 6) : Statement (.ldr dr base off6) := opcode_of_off6 _ _ _ _
theorem str (sr base : RegIdx) (off6 : BitVec 6) : Statement (.str sr base off6) := opcode_of_off6 _ _ _ _
theorem not (dr sr : RegIdx) : Statement (.not dr sr) := opcode_of_off6 _ _ _ _
theorem addReg (dr sr1 sr2 : RegIdx) : Statement (.addReg dr sr1 sr2) := opcode_of_reg _ _ _ _
theorem andReg (dr sr1 sr2 : RegIdx) : Statement (.andReg dr sr1 sr2) := opcode_of_reg _ _ _ _
theorem addImm (dr sr1 : RegIdx) (imm5 : BitVec 5) : Statement (.addImm dr sr1 imm5) := opcode_of_imm _ _ _ _
theorem andImm (dr sr1 : RegIdx) (imm5 : BitVec 5) : Statement (.andImm dr sr1 imm5) := opcode_of_imm _ _ _ _
theorem jsrr (base : RegIdx) : Statement (.jsrr base) := under_mask _ 0xFE00 0xF800 _ (opcode_of_base 0b0100000 base) rfl
theorem jmp (base : RegIdx) : Statement (.jmp base) := under_mask _ 0xFE00 0xF000 _ (opcode_of_base 0b1100000 base) rfl
theorem rti : Statement .rti := rfl
theorem reserved : Statement .reserved := rfl

theorem jsr (off11 : BitVec 11) : Statement (.jsr off11) := by
  refine BitVec.eq_of_getLsbD_eq fun k hk => ?_
  simp only [encode, tableMask, tableMatch, BitVec.getLsbD_and]
  rw [BitVec.getLsbD_append]
  interval_cases k <;> simp

theorem trap (vect8 : BitVec 8) : Statement (.trap vect8) := by
  refine BitVec.eq_of_getLsbD_eq fun k hk => ?_
  simp only [encode, tableMask, tableMatch, BitVec.getLsbD_and]
  rw [BitVec.getLsbD_append]
  interval_cases k <;> simp

end Sys2Proof.Laws.TableRow
end

