-- ==== Sys2Proof/Tests/Slice0.lean ====
section
/-! SUPPORT. Tests on the spec's own vectors (95_test_vectors, named S, A, M, B, J, T, Y, Z as there), the decoding of a
written-out word for every constructor, the well-formedness smoke test, and a witness for every statement that has
hypotheses. -/

namespace Sys2Proof.Tests

open Sys2Proof Sys2Proof.Machine

/-! ## Helpers: a small state, and what one step leaves -/

/-- The start of a one-step vector: a word at an address, the PC there, the PSW as given, all else as at reset. -/
def start (a w psw : Word) : State := ((State.reset.memWrite a w).setPc a).setPsw psw

/-- The next state of a step, if the step succeeds. -/
def next (s : State) : Option State :=
  match step s with
  | .next t => some t
  | .fault _ => none
  | .refused _ => none

/-- The error of a step, if the step fails. -/
def err (s : State) : Option Fault :=
  match step s with
  | .next _ => none
  | .fault k => some k
  | .refused _ => none

/-- A register, the PSW and the PC after a step. -/
def seen (r : RegIdx) (s : State) : Option (Word × Word × Word) := (next s).map fun t => (t.readReg r, t.psw, t.pc)

/-- A memory word, the PSW and the PC after a step. -/
def seenMem (a : Word) (s : State) : Option (Word × Word × Word) := (next s).map fun t => (t.memRead a, t.psw, t.pc)

/-! ## Well-formedness: the one check, and the term it refuses (30_encoding R89) -/

theorem test_wellFormed_refuses_reserved : Instr.reserved.wellFormed = false := by decide
theorem test_wellFormed_accepts_rti : Instr.rti.wellFormed = true := by decide

/-! ## Decoding: a word for every constructor, written out from 30_encoding R88 -/

theorem test_decode_br : decode 0b0000_011_000000101 = .br 0b011 5 := by decide
theorem test_decode_addReg : decode 0b0001_000_001_0_00_010 = .addReg 0 1 2 := by decide
theorem test_decode_addReg_ignored : decode 0b0001_000_000_0_11_011 = .addReg 0 0 3 := by decide
theorem test_decode_addImm : decode 0b0001_111_100_1_11111 = .addImm 7 4 0b11111 := by decide
theorem test_decode_ld : decode 0b0010_010_000000101 = .ld 2 5 := by decide
theorem test_decode_st : decode 0b0011_010_111111111 = .st 2 0b111111111 := by decide
theorem test_decode_jsr : decode 0b0100_1_00000000011 = .jsr 3 := by decide
theorem test_decode_jsrr : decode 0b0100_0_11_111_101010 = .jsrr 7 := by decide
theorem test_decode_andReg : decode 0b0101_011_001_0_00_010 = .andReg 3 1 2 := by decide
theorem test_decode_andImm : decode 0b0101_000_001_1_10000 = .andImm 0 1 0b10000 := by decide
theorem test_decode_ldr : decode 0b0110_000_001_111111 = .ldr 0 1 0b111111 := by decide
theorem test_decode_str : decode 0b0111_001_010_000001 = .str 1 2 1 := by decide
theorem test_decode_rti : decode 0b1000_111111111111 = .rti := by decide
theorem test_decode_not : decode 0b1001_010_011_000000 = .not 2 3 := by decide
theorem test_decode_ldi : decode 0b1010_110_000000001 = .ldi 6 1 := by decide
theorem test_decode_sti : decode 0b1011_010_111110100 = .sti 2 0b111110100 := by decide
theorem test_decode_jmp : decode 0b1100_101_111_010101 = .jmp 7 := by decide
theorem test_decode_reserved : decode 0b1101_101010101010 = .reserved := by decide
theorem test_decode_lea : decode 0b1110_000_111111111 = .lea 0 0b111111111 := by decide
theorem test_decode_trap : decode 0b1111_1111_00100101 = .trap 0b00100101 := by decide
theorem test_encode_ret : encode (.jmp 7) = 0xC1C0 := by decide
theorem test_encode_not : encode (.not 0 1) = 0x907F := by decide
theorem test_tableWord_too_wide : decodeTableWord 16 0x10000 = none := by decide

/-! ## Sign extension: S1, S2 -/

theorem test_sext_S1 : sext 9 0x1FF = 0xFFFF := by decide
theorem test_sext_S2 : sext 9 0x0FF = 0x00FF := by decide

/-! ## ALU: S3, S4, S5, A5, A8, A10, A14, A15, A18 -/

theorem test_addImm_S3 : seen 0 ((start 0x3000 0x1063 0).writeReg 1 5) = some (8, 1, 0x3001) := by decide
theorem test_addReg_S4 :
    seen 0 (((start 0x3000 0x1042 0).writeReg 1 0xFFFF).writeReg 2 1) = some (0, 2, 0x3001) := by decide
theorem test_andImm_S5 : seen 0 ((start 0x3000 0x506F 0).writeReg 1 0x0F0F) = some (0x000F, 1, 0x3001) := by decide
theorem test_addReg_A8 : seen 0 ((start 0x3000 0x1018 0).writeReg 0 3) = some (6, 1, 0x3001) := by decide
theorem test_addImm_A10 : seen 7 (start 0x3000 0x1FE0 0x8385) = some (0, 0x8382, 0x3001) := by decide
theorem test_andReg_A11 :
    seen 3 (((start 0x3000 0x5642 0).writeReg 1 0xF0F0).writeReg 2 0x0FF0) = some (0x00F0, 1, 0x3001) := by decide
theorem test_andImm_A14 : seen 0 ((start 0x3000 0x5070 0).writeReg 1 0x001F) = some (0x0010, 1, 0x3001) := by decide
theorem test_not_A15 : seen 0 ((start 0x3000 0x907F 0).writeReg 1 0x0F0F) = some (0xF0F0, 4, 0x3001) := by decide
theorem test_not_A18 : seen 2 (start 0x3000 0x94BF 0) = some (0xFFFF, 4, 0x3001) := by decide

/-! ## Loads, stores and LEA: M1, M3, M4, M9, M10, M11, S9, M16, M17, M18, M19, M22 -/

theorem test_ld_M1 :
    seen 2 ((start 0x3000 0x2405 0).memWrite 0x3006 0x8001) = some (0x8001, 4, 0x3001) := by decide
theorem test_ld_M3 : seen 0 (start 0x3000 0x21FF 0) = some (0x21FF, 1, 0x3001) := by decide
theorem test_st_M4 :
    seenMem 0x3006 ((start 0x3000 0x3405 0).writeReg 2 0xABCD) = some (0xABCD, 0, 0x3001) := by decide
theorem test_ldr_M9 :
    seen 0 (((start 0x3000 0x6041 0).writeReg 1 0xFFFF).memWrite 0 0x8000) = some (0x8000, 4, 0x3001) := by decide
theorem test_ldr_M6 :
    seen 0 (((start 0x3000 0x607F 0).writeReg 1 0x4001).memWrite 0x4000 0x0042) = some (0x0042, 1, 0x3001) := by decide

/-- The state of M10 and M11. -/
def strStart : State := ((start 0x3000 0x7281 0).writeReg 1 0xBEEF).writeReg 2 0x4000

theorem test_str_M10 : seenMem 0x4081 strStart = some (0xBEEF, 0, 0x3001) := by decide
theorem test_str_M11 :
    seenMem 0x4001 { strStart with strOffsetWidth := .six } = some (0xBEEF, 0, 0x3001) := by decide
theorem test_ldi_S9 :
    seen 0 (((start 0x3000 0xA001 0).memWrite 0x3002 0x4000).memWrite 0x4000 0x1234) = some (0x1234, 1, 0x3001) := by
  decide
theorem test_ldi_M16 : seen 0 ((start 0x3000 0xA001 0).memWrite 0x3002 0x3002) = some (0x3002, 1, 0x3001) := by decide
theorem test_sti_M17 :
    seenMem 0x4000 (((start 0x3000 0xB001 4).writeReg 0 0x5555).memWrite 0x3002 0x4000) = some (0x5555, 4, 0x3001) := by
  decide
theorem test_sti_M18 :
    seenMem 0x3002 (((start 0x3000 0xB001 0).writeReg 0 0x9999).memWrite 0x3002 0x3002) = some (0x9999, 0, 0x3001) := by
  decide
theorem test_lea_M19 : seen 0 (start 0xFFFF 0xE1FF 0) = some (0xFFFF, 4, 0x0000) := by decide
theorem test_lea_M22 : seen 0 (start 0x3000 0xE100 0) = some (0x2F01, 1, 0x3001) := by decide

/-! ## Control: S7, B2, B4, B11, J4, J6, J7, J8, T1, T2 -/

theorem test_br_S7 : (next (start 0x3000 0x0605 4)).map (fun t => t.pc) = some 0x3001 := by decide
theorem test_br_B2 : err (start 0x3000 0x0E05 7) = some .statusWordDecode := by decide
theorem test_br_B4 : (next (start 0x3000 0x0005 0)).map (fun t => t.pc) = some 0x3006 := by decide
theorem test_br_B11 : (next (start 0xFFFF 0x0201 1)).map (fun t => t.pc) = some 0x0001 := by decide
theorem test_jsr_J4 : seen 7 (start 0x3000 0x4C00 0) = some (0x3001, 0, 0x2C01) := by decide
theorem test_jsrr_J6 : seen 7 ((start 0x3000 0x41C0 0).writeReg 7 0x4444) = some (0x3001, 0, 0x4444) := by decide
theorem test_jmp_J7 : seen 7 ((start 0x3000 0xC1C0 0).writeReg 7 0x3002) = some (0x3002, 0, 0x3002) := by decide
theorem test_jmp_J8 : seen 0 ((start 0x3000 0xC000 0).writeReg 0 0xFFFF) = some (0xFFFF, 0, 0xFFFF) := by decide
theorem test_trap_T1 : seen 7 ((start 0x3001 0xF020 0).memWrite 0x0020 0x3010) = some (0x3002, 0, 0x3010) := by decide
theorem test_trap_T2 :
    seen 7 ((start 0x3000 0xFF25 0x8001).memWrite 0x0025 0x0400) = some (0x3001, 0x8001, 0x0400) := by decide

/-! ## System: S12, Y1, Y3, S13, Y5 -/

/-- RTI at 0x3000 under a PSW, with R6 and the two words of a frame. -/
def rtiStart (psw r6 newPc newPsw : Word) : State :=
  (((start 0x3000 0x8000 psw).writeReg 6 r6).memWrite r6 newPc).memWrite (r6 + 1) newPsw

theorem test_rti_Y1 : seen 6 (rtiStart 0 0xFFFF 0x3100 0x0002) = some (0x0001, 0x0002, 0x3100) := by decide
theorem test_rti_Y3 : seen 6 (rtiStart 4 0x4000 0x3000 0xFFFF) = some (0x4002, 0xFFFF, 0x3000) := by decide
theorem test_rti_S12 : err (rtiStart 0x8001 0x4000 0x3100 0) = some .illegalPrivilegeTransition := by decide
theorem test_rti_S12_after :
    let s := rtiStart 0x8001 0x4000 0x3100 0
    afterStep s = s.setPc 0x3001 := by decide
theorem test_reserved_S13 : err (start 0x3000 0xD000 0) = some .reservedOpcode := by decide
theorem test_reserved_Y5 : afterStep (start 0x3000 0xDFFF 0x8002) = (start 0x3000 0xDFFF 0x8002).setPc 0x3001 := by decide

/-! ## State, ports and host: S15, Z1 to Z7, and the image of P1 -/

theorem test_updateFlag_S15 :
    let s := ((State.reset.writeReg 0 0x8000).setPsw 0x0382).updateFlag (.gpr 0)
    s.psw = 0x0384 ∧ (s.updateFlag (.gpr 0)).psw = 0x0384 := by decide
theorem test_getFlag_Z2 : (State.reset.setPsw 0).getFlag = .error .statusWordDecode := by decide
theorem test_fields_Z3 :
    (State.reset.setPsw 0x8380).getMode = .user ∧ (State.reset.setPsw 0x8380).getPriority = 7 := by decide
theorem test_setPriority_Z4 : ((State.reset.setPsw 0x8001).setPriority 5).psw = 0x8281 := by decide
theorem test_port_Z5 : portRead 10 State.reset = .error .registerIndexOutOfRange := by decide
theorem test_step_Z6 : seen 0 (start 0xFFFF 0x1021 0) = some (1, 1, 0) := by decide
theorem test_readThenIncrement_Z7 :
    ((State.reset.setPc 0xFFFF).readThenIncrement .pc).1 = 0xFFFF ∧
    ((State.reset.setPc 0xFFFF).readThenIncrement .pc).2.pc = 0 := by decide
theorem test_imageWords_P1 :
    imageWords [0x30, 0x00, 0x50, 0x20, 0x12, 0x25, 0x10, 0x01] = some [0x3000, 0x5020, 0x1225, 0x1001] := by decide
theorem test_imageWords_odd : imageWords [0x30, 0x00, 0x50] = none := by decide
theorem test_faultCodes :
    Fault.unknownOpcode.code = 1 ∧ Fault.registerIndexOutOfRange.code = 2 ∧ Fault.reservedOpcode.code = 3 ∧
    Fault.illegalPrivilegeTransition.code = 4 ∧ Fault.statusWordDecode.code = 5 := by decide
theorem test_memWf_sorted : memWf ((State.reset.memWrite 5 1).memWrite 3 2).mem = true := by decide
theorem test_memWf_refuses_unsorted : memWf [(5, 1), (3, 2)] = false := by decide
theorem test_withFetchWord : err (State.reset.withFetchWord 16 0xD000) = some .reservedOpcode := by decide

/-! ## The assembler, on the listings of P2 and P3, and an operand it refuses for each range -/

theorem test_assemble_P2 :
    assembleProgram 0x3000 [.ld 1 0x3008, .jsr 0x3005, .lea 0 0x3009, .str 1 0 0, .br true true true 0x3004, .not 1 1,
      .addImm 1 1 1, .ret, .fill 7, .fill 0] =
    some [0x2207, 0x4803, 0xE006, 0x7200, 0x0FFF, 0x927F, 0x1261, 0xC1C0, 0x0007, 0x0000] := by decide
theorem test_assemble_P3 :
    assembleProgram 0x3010 [.sti 2 0x3005, .not 3 2, .jmp 7] = some [0xB5F4, 0x96BF, 0xC1C0] := by decide
theorem test_assemble_refuses :
    assembleInstr 0 (.jmp 8) = none ∧ assembleInstr 0 (.addImm 0 0 16) = none ∧ assembleInstr 0 (.addImm 0 0 (-17)) = none ∧
    assembleInstr 0 (.ldr 0 0 32) = none ∧ assembleInstr 0x3000 (.ld 0 0x3101) = none ∧
    assembleInstr 0x3000 (.jsr 0x3401) = none ∧ assembleInstr 0 (.trap 256) = none := by decide

/-! ## Witnesses: the hypotheses of the statements are met, clause by clause -/

/-- Obligations.SignExtensionIsBitExact, at the narrowest and the widest field. -/
theorem witness_signExtension : ((0 : Nat) < 1 ∧ 1 ≤ 16) ∧ ((0 : Nat) < 16 ∧ 16 ≤ 16) ∧ (15 : Nat) < 16 := by decide
/-- Obligations.RegisterWriteThenRead and ReadThenIncrementSteps. -/
theorem witness_two_slots : RegName.gpr 7 ≠ RegName.psw ∧ RegName.pc ≠ RegName.gpr 0 := by decide
/-- Obligations.UpdateFlagWritesOnlyTheFlag. -/
theorem witness_updateFlag : RegName.gpr 0 ≠ RegName.psw ∧ RegName.pc ≠ RegName.psw := by decide
/-- Obligations.ExactlyOneFlagBitAfterUpdate, both ways. -/
theorem witness_oneFlagBit :
    (∃ n, State.reset.updateFlag .pc = State.reset.updateFlag n) ∧
    (∃ f, State.reset.setFlag .negative = State.reset.setFlag f) := ⟨⟨_, rfl⟩, ⟨_, rfl⟩⟩
/-- Obligations.FieldWritesKeepOtherBits, at the bits beside each field. -/
theorem witness_fieldWrites :
    ((3 : Nat) < 16 ∧ 3 ≤ 3) ∧ (14 : Nat) < 15 ∧ ((6 : Nat) < 7 ∨ 10 ≤ 6) ∧ ((10 : Nat) < 7 ∨ 10 ≤ 10) := by decide
/-- Obligations.RegisterPortCodes, at both ends of each clause. -/
theorem witness_portCodes :
    (0 : BitVec 4).toNat = (0 : RegIdx).toNat ∧ (7 : BitVec 4).toNat = (7 : RegIdx).toNat ∧ (8 : BitVec 4).toNat = 8 ∧
    (9 : BitVec 4).toNat = 9 ∧ 10 ≤ (10 : BitVec 4).toNat ∧ 10 ≤ (15 : BitVec 4).toNat := by decide
/-- Obligations.OnlyTheStoredWordChanges: a form that stores and one that does not. -/
theorem witness_storeFrame :
    (∃ t, exec (.st 0 0) State.reset = .next t) ∧ storeAddr (.st 0 0) State.reset ≠ some 1 ∧
    (∃ t, exec (.addImm 0 0 1) State.reset = .next t) ∧ storeAddr (.addImm 0 0 1) State.reset ≠ some 0 :=
  ⟨⟨_, rfl⟩, by decide, ⟨_, rfl⟩, by decide⟩
/-- Obligations.OnlyTheDestinationRegisterChanges. -/
theorem witness_regFrame :
    (∃ t, exec (.jsr 3) State.reset = .next t) ∧ regDest (.jsr 3) ≠ some 6 ∧
    (∃ t, exec (.ldr 0 1 1) State.reset = .next t) ∧ regDest (.ldr 0 1 1) ≠ some 1 :=
  ⟨⟨_, rfl⟩, by decide, ⟨_, rfl⟩, by decide⟩
/-- Obligations.StoreIsSeenByTheNextFetch, for ST in the state of M5, and for STR and STI. -/
theorem witness_storeThenFetch :
    let s := start 0x3000 0x3000 0
    decode (s.memRead s.pc) = .st 0 0 ∧ storeAddr (.st 0 0) (s.setPc (s.pc + 1)) = some (s.pc + 1) ∧
      storeSource (.st 0 0) = some 0 := by decide
theorem witness_strThenFetch :
    let s := (start 0x3000 0x7200 0).writeReg 0 0x3001
    decode (s.memRead s.pc) = .str 1 0 0 ∧ storeAddr (.str 1 0 0) (s.setPc (s.pc + 1)) = some (s.pc + 1) ∧
      storeSource (.str 1 0 0) = some 1 := by decide
theorem witness_stiThenFetch :
    let s := (start 0x3000 0xB001 0).memWrite 0x3002 0x3001
    decode (s.memRead s.pc) = .sti 0 1 ∧ storeAddr (.sti 0 1) (s.setPc (s.pc + 1)) = some (s.pc + 1) ∧
      storeSource (.sti 0 1) = some 0 := by decide
/-- Obligations.EveryWordHasOneRow. -/
theorem witness_row : (0x1042 : Word) &&& tableMask (.addReg 0 0 0) = tableMatch (.addReg 0 0 0) := by decide
/-- Obligations.StepRunsTheDecodedInstruction. -/
theorem witness_step : decode ((start 0x3000 0x1063 0).memRead (start 0x3000 0x1063 0).pc) = .addImm 0 1 3 := by decide
/-- Obligations.ZeroWordIsNoOp. -/
theorem witness_zeroWord : (start 0 0 0).memRead (start 0 0 0).pc = 0 := by decide
/-- Obligations.StrStoresUnderBothWidths, under each setting. -/
theorem witness_strWidths :
    strStart.strOffsetWidth = .nine ∧ { strStart with strOffsetWidth := .six }.strOffsetWidth = .six := by decide
/-- Obligations.BrBranchesOnTheFlag, clause by clause. -/
theorem witness_br :
    (0 : BitVec 3) = 0 ∧ (4 : BitVec 3) ≠ 0 ∧ (State.reset.setPsw 4).getFlag = .ok .negative ∧
    (7 : BitVec 3) ≠ 0 ∧ (State.reset.setPsw 1).getFlag = .ok .positive := by decide
/-- Obligations.BrFailsOnAnUndefinedFlag, at the pattern of reset and at 111. -/
theorem witness_brFails :
    (7 : BitVec 3) ≠ 0 ∧ State.reset.flagBits ≠ 0b001 ∧ State.reset.flagBits ≠ 0b010 ∧ State.reset.flagBits ≠ 0b100 ∧
    (State.reset.setPsw 7).flagBits ≠ 0b001 ∧ (State.reset.setPsw 7).flagBits ≠ 0b010 ∧
    (State.reset.setPsw 7).flagBits ≠ 0b100 := by decide
/-- Obligations.RtiPopsTheFrame, RtiFailsInUserMode and ModeMattersOnlyToRti. -/
theorem witness_modes :
    State.reset.psw.getLsbD 15 = false ∧ State.reset.getMode = .privileged ∧ (State.reset.setPsw 0x8002).psw.getLsbD 15 = true ∧
    (State.reset.setPsw 0x8002).getMode = .user ∧ Instr.trap 0x25 ≠ .rti := by decide
/-- Obligations.ReservedAlwaysFails, at the first and the last reserved word. -/
theorem witness_reserved :
    (start 0x3000 0xD000 0).memRead (start 0x3000 0xD000 0).pc = 0b1101#4 ++ 0x000#12 ∧
    (start 0x3000 0xDFFF 0).memRead (start 0x3000 0xDFFF 0).pc = 0b1101#4 ++ 0xFFF#12 := by decide
/-- Obligations.FailedStepMovesOnlyThePc, for each of the three errors of an instruction. -/
theorem witness_failedStep :
    step (start 0x3000 0xD000 0) = .fault .reservedOpcode ∧
    step (start 0x3000 0x8000 0x8000) = .fault .illegalPrivilegeTransition ∧
    step (start 0x3000 0x0400 0) = .fault .statusWordDecode := ⟨rfl, rfl, rfl⟩
/-- Obligations.FlagUpdatersExactly, its three clauses. -/
theorem witness_flagUpdaters :
    ((∃ t, exec (.lea 3 1) State.reset = .next t) ∧ flagDest (.lea 3 1) = some 3) ∧
    (∃ t, exec .rti State.reset = .next t) ∧
    ((∃ t, exec (.jsr 1) State.reset = .next t) ∧ flagDest (.jsr 1) = none ∧ Instr.jsr 1 ≠ .rti) :=
  ⟨⟨⟨_, rfl⟩, rfl⟩, ⟨_, rfl⟩, ⟨_, rfl⟩, rfl, by decide⟩
/-- Obligations.OnlyRtiWritesTheUpperPsw, at both ends of the field. -/
theorem witness_upperPsw :
    Instr.not 0 0 ≠ .rti ∧ (∃ t, exec (.not 0 0) State.reset = .next t) ∧ ((3 : Nat) < 16 ∧ 3 ≤ 3) ∧
    ((15 : Nat) < 16 ∧ 3 ≤ 15) := ⟨by decide, ⟨_, rfl⟩, by decide, by decide⟩
/-- Obligations.FlagStaysDefinedWithoutRti. -/
theorem witness_flagStays :
    FlagDefined (start 0x3000 0x0FFF 1) ∧
    decode ((start 0x3000 0x0FFF 1).memRead (start 0x3000 0x0FFF 1).pc) ≠ .rti ∧
    ∃ t, step (start 0x3000 0x0FFF 1) = .next t := ⟨⟨.positive, rfl⟩, by decide, ⟨_, rfl⟩⟩
/-- Obligations.UserModeIsNeverLeft. -/
theorem witness_userMode :
    InUserMode (start 0x3000 0xF025 0x8002) ∧ ∃ t, step (start 0x3000 0xF025 0x8002) = .next t := ⟨rfl, ⟨_, rfl⟩⟩
/-- Obligations.StepKeepsMemoryCanonical and StrOffsetWidthIsFixed, for a step that stores. -/
theorem witness_canonical :
    Canonical (start 0x3000 0x3405 0) ∧ ∃ t, step (start 0x3000 0x3405 0) = .next t := ⟨rfl, ⟨_, rfl⟩⟩
/-- Obligations.LoaderWritesTheProgram: one word at the top of memory, an address on either side, and the shortest
program past the top. -/
theorem witness_loader :
    (0xFFFF : Word).toNat + [(0x01FF : Word)].length ≤ 65536 ∧ (0 : Nat) < [(0x01FF : Word)].length ∧
    ((0xFFFE : Word).toNat < (0xFFFF : Word).toNat ∨ (0xFFFF : Word).toNat + 1 ≤ (0xFFFE : Word).toNat) ∧
    ((0x3001 : Word).toNat < (0x3000 : Word).toNat ∨ (0x3000 : Word).toNat + 1 ≤ (0x3001 : Word).toNat) ∧
    65536 < (0xFFFF : Word).toNat + [(0x01FF : Word), 0].length := by decide
/-- Obligations.NoStepAfterAFailure, in both phases. -/
theorem witness_failedSession :
    let x : Session := ⟨.loading, start 0x3000 0xD000 0⟩
    let y : Session := ⟨.running, start 0x3000 0xD000 0⟩
    (x.phase = .loading ∨ x.phase = .running) ∧ step x.block = .fault .reservedOpcode ∧
    (y.phase = .loading ∨ y.phase = .running) ∧ step y.block = .fault .reservedOpcode :=
  ⟨.inl rfl, rfl, .inr rfl, rfl⟩
/-- Obligations.SuccessLeavesTheEngineReady, in both phases. -/
theorem witness_successfulSession :
    let x : Session := ⟨.loading, start 0x3000 0x01FF 0⟩
    let y : Session := ⟨.running, start 0x3000 0x01FF 0⟩
    (x.phase = .loading ∨ x.phase = .running) ∧ (∃ t, step x.block = .next t) ∧
    (y.phase = .loading ∨ y.phase = .running) ∧ (∃ t, step y.block = .next t) :=
  ⟨.inl rfl, ⟨_, rfl⟩, .inr rfl, ⟨_, rfl⟩⟩
/-- Obligations.ImageIsBigEndianWords, its second clause at the shortest odd image and at the empty one. -/
theorem witness_edgeImage :
    ([(0x30 : Byte)].length % 2 = 1 ∨ [(0x30 : Byte)] = []) ∧ (([] : List Byte).length % 2 = 1 ∨ ([] : List Byte) = []) := by
  decide

end Sys2Proof.Tests
end

/-! Sign and zero extension, bit by bit (00_scope R9). -/

namespace Sys2Proof.Machine

/-- The mask of R9 holds exactly the bits from the field's width up. -/
theorem getLsbD_extensionMask {k : Nat} (n : Nat) (hk : k < 16) :
    (0xFFFF#16 <<< n).getLsbD k = decide (n ≤ k) := by
  rw [← show BitVec.allOnes 16 = 0xFFFF#16 from rfl, BitVec.getLsbD_shiftLeft, BitVec.getLsbD_allOnes,
    Bool.eq_iff_iff]
  simp only [Bool.and_eq_true, Bool.not_eq_true', decide_eq_true_eq, decide_eq_false_iff_not]
  omega

theorem getLsbD_zext {n k : Nat} (f : BitVec n) (hk : k < 16) :
    (zext n f).getLsbD k = if k < n then f.getLsbD k else false := by
  rw [zext, BitVec.getLsbD_setWidth, decide_eq_true hk, Bool.true_and]
  split
  case isTrue => rfl
  case isFalse h => exact BitVec.getLsbD_of_ge f k (Nat.le_of_not_lt h)

/-- `sext` is `zext` with R9's mask added where the sign bit is set. -/
theorem getLsbD_sext_eq_or {n k : Nat} (f : BitVec n) (hk : k < 16) :
    (sext n f).getLsbD k = ((zext n f).getLsbD k || (f.getLsbD (n - 1) && decide (n ≤ k))) := by
  unfold sext
  cases f.getLsbD (n - 1) with
  | false => simp [zext]
  | true => simp [zext, BitVec.getLsbD_or, getLsbD_extensionMask n hk]

theorem getLsbD_sext {n k : Nat} (f : BitVec n) (hk : k < 16) :
    (sext n f).getLsbD k = if k < n then f.getLsbD k else f.getLsbD (n - 1) := by
  rw [getLsbD_sext_eq_or f hk, getLsbD_zext f hk]
  by_cases h : k < n
  · simp [h]
  · simp [h, Nat.le_of_not_lt h]

/-- Settles O1: the two extensions bit by bit; the mask form is the definition of `sext`. -/
theorem signExtensionIsBitExact : Obligations.SignExtensionIsBitExact :=
  ⟨fun _ f _ _ _ hk => ⟨getLsbD_sext f hk, getLsbD_zext f hk⟩, fun _ _ _ _ => rfl, by decide⟩

end Sys2Proof.Machine

/-! The register file, and the fields of the processor status word (10_state R24 to R37). -/

namespace Sys2Proof.Machine

/-! ## Any slot written -/

theorem read_write_same (s : State) (n : RegName) (v : Word) : (s.write n v).read n = v := by
  cases n with
  | gpr i => exact readReg_writeReg_same s i v
  | pc => rfl
  | psw => rfl

/-- Slots do not alias (R20): only two general-purpose registers share a field, the vector `regs`. -/
theorem read_write_ne (s : State) {m n : RegName} (v : Word) (h : m ≠ n) : (s.write n v).read m = s.read m := by
  cases n with
  | gpr i =>
    cases m with
    | gpr r => exact readReg_writeReg_ne s i r v fun e => h (congrArg RegName.gpr e)
    | pc => rfl
    | psw => rfl
  | pc =>
    cases m with
    | gpr r => rfl
    | pc => exact absurd rfl h
    | psw => rfl
  | psw =>
    cases m with
    | gpr r => rfl
    | pc => rfl
    | psw => exact absurd rfl h

theorem sameMemory_write (s : State) (n : RegName) (v : Word) : SameMemory s (s.write n v) := by
  intro a
  cases n with
  | gpr i => exact memRead_writeReg s i a v
  | pc => exact memRead_setPc s a v
  | psw => exact memRead_setPsw s a v

/-- Settles O2: the slot written and the other slots, by the slot's name. -/
theorem registerWriteThenRead : Obligations.RegisterWriteThenRead :=
  fun s n v => ⟨read_write_same s n v, fun _ h => read_write_ne s v h, sameMemory_write s n v⟩

/-- Settles O9: the increment is a write of the old contents plus one, and the sum of words is modulo 2^16. -/
theorem readThenIncrementSteps : Obligations.ReadThenIncrementSteps := by
  intro s n
  refine ⟨rfl, ?_, fun _ h => read_write_ne s _ h, sameMemory_write s n _⟩
  calc ((s.write n (s.read n + 1)).read n).toNat
      = (s.read n + 1).toNat := by rw [read_write_same]
    _ = ((s.read n).toNat + 1) % 65536 := BitVec.toNat_add _ _

/-! ## The fields of the processor status word, read -/

theorem getMode_eq_user_iff (s : State) : s.getMode = .user ↔ s.psw.getLsbD 15 = true := by
  unfold State.getMode
  cases s.psw.getLsbD 15 <;> decide

theorem getMode_eq_privileged_iff (s : State) : s.getMode = .privileged ↔ s.psw.getLsbD 15 = false := by
  unfold State.getMode
  cases s.psw.getLsbD 15 <;> decide

/-- Settles O3: each value of `psw[15]` is one mode; the priority and the port's reads are so by definition. -/
theorem modeAndPriorityAlwaysRead : Obligations.ModeAndPriorityAlwaysRead :=
  fun s => ⟨getMode_eq_user_iff s, getMode_eq_privileged_iff s, rfl, rfl, rfl⟩

/-- Settles O4: `get_flag` depends on the PSW through the flag field alone, whose eight patterns are looked up. -/
theorem getFlagDecodesThreePatterns : Obligations.GetFlagDecodesThreePatterns := by
  intro s
  unfold State.getFlag State.flagBits
  generalize s.psw.extractLsb' 0 3 = pattern
  revert pattern
  decide

/-- Settles O5: the sign bit is tried first, then zero-ness. -/
theorem conditionCodeOfWord : Obligations.ConditionCodeOfWord := by
  intro v
  unfold cc
  split
  case isTrue => rfl
  case isFalse => split <;> rfl

/-! ## The fields of the processor status word, written: each bit of the new word -/

theorem getLsbD_append_extractLow {n : Nat} (v : Word) (x : BitVec n) (w k : Nat) :
    (x ++ v.extractLsb' 0 w).getLsbD k = if k < w then v.getLsbD k else x.getLsbD (k - w) := by
  rw [BitVec.getLsbD_append, BitVec.getLsbD_extractLsb', Nat.zero_add]
  by_cases h : k < w
  · rw [if_pos h, if_pos h, decide_eq_true h, Bool.true_and]
  · rw [if_neg h, if_neg h]

theorem getLsbD_extract_append {n : Nat} (v : Word) (x : BitVec n) {start w k : Nat} (hk : k < w + n) :
    (v.extractLsb' start w ++ x).getLsbD k = if k < n then x.getLsbD k else v.getLsbD (start + (k - n)) := by
  rw [BitVec.getLsbD_append, BitVec.getLsbD_extractLsb']
  by_cases h : k < n
  · rw [if_pos h, if_pos h]
  · rw [if_neg h, if_neg h, decide_eq_true (by omega : k - n < w), Bool.true_and]

theorem getLsbD_setFlag (s : State) (f : CondCode) {k : Nat} (hk : k < 16) :
    (s.setFlag f).psw.getLsbD k = if k < 3 then f.bits.getLsbD k else s.psw.getLsbD k := by
  rw [State.setFlag, setPsw_psw, getLsbD_extract_append _ _ hk]
  by_cases h : k < 3
  · rw [if_pos h, if_pos h]
  · rw [if_neg h, if_neg h, show 3 + (k - 3) = k by omega]

theorem getLsbD_setMode (s : State) (m : Mode) (k : Nat) :
    (s.setMode m).psw.getLsbD k = if k < 15 then s.psw.getLsbD k else m.bit.getLsbD (k - 15) :=
  getLsbD_append_extractLow s.psw m.bit 15 k

theorem getLsbD_setPriority (s : State) (p : BitVec 3) {k : Nat} (hk : k < 16) :
    (s.setPriority p).psw.getLsbD k = if 7 ≤ k ∧ k < 10 then p.getLsbD (k - 7) else s.psw.getLsbD k := by
  rw [State.setPriority, setPsw_psw, getLsbD_append_extractLow,
    getLsbD_extract_append _ _ (by omega : k - 7 < 6 + 3)]
  by_cases hlow : k < 7
  · rw [if_pos hlow, if_neg (by omega)]
  by_cases hfield : k < 10
  · rw [if_neg hlow, if_pos (by omega), if_pos (by omega)]
  · rw [if_neg hlow, if_neg (by omega), if_neg (by omega), show 10 + (k - 7 - 3) = k by omega]

theorem getMode_setMode (s : State) (m : Mode) : (s.setMode m).getMode = m := by
  rw [State.getMode, getLsbD_setMode]
  cases m <;> rfl

theorem getPriority_setPriority (s : State) (p : BitVec 3) : (s.setPriority p).getPriority = p := by
  ext k hk
  rw [State.getPriority, ← BitVec.getLsbD_eq_getElem, BitVec.getLsbD_extractLsb', getLsbD_setPriority s p (by omega),
    if_pos (by omega), Nat.add_sub_cancel_left, decide_eq_true hk, Bool.true_and, BitVec.getLsbD_eq_getElem hk]

/-- Settles O8: each field reads back, and a bit outside it is the old bit of the same place. -/
theorem fieldWritesKeepOtherBits : Obligations.FieldWritesKeepOtherBits := by
  intro s
  refine ⟨fun f => ⟨getFlag_setFlag s f, fun k hk h3 => ?_⟩, fun m => ⟨getMode_setMode s m, fun k hk => ?_⟩,
    fun p => ⟨getPriority_setPriority s p, fun k hk hout => ?_⟩⟩
  · rw [getLsbD_setFlag s f hk, if_neg (by omega)]
  · rw [getLsbD_setMode, if_pos hk]
  · rw [getLsbD_setPriority s p hk, if_neg (by omega)]

/-! ## `update_flag` -/

/-- A flag write is a write of the PSW, so it leaves every other slot. -/
theorem read_setFlag_ne (s : State) (f : CondCode) {m : RegName} (h : m ≠ .psw) : (s.setFlag f).read m = s.read m :=
  read_write_ne s (n := .psw) _ h

theorem setFlag_setFlag (s : State) (f g : CondCode) : (s.setFlag f).setFlag g = s.setFlag g := by
  rw [State.setFlag, setFlag_upper]
  rfl

theorem updateFlag_updateFlag (s : State) {n : RegName} (h : n ≠ .psw) :
    (s.updateFlag n).updateFlag n = s.updateFlag n :=
  calc (s.updateFlag n).updateFlag n
      = (s.updateFlag n).setFlag (cc (s.read n)) := by rw [State.updateFlag, State.updateFlag, read_setFlag_ne s _ h]
    _ = s.updateFlag n := setFlag_setFlag s _ _

/-- Settles O6: `update_flag` is a flag write of a slot's condition code, and a slot other than the PSW reads the same
after it. -/
theorem updateFlagWritesOnlyTheFlag : Obligations.UpdateFlagWritesOnlyTheFlag := by
  intro s n
  exact ⟨⟨getFlag_updateFlag s n, updateFlag_upper s n⟩, fun _ h => read_setFlag_ne s _ h,
    fun a => memRead_updateFlag s a n, updateFlag_updateFlag s⟩

end Sys2Proof.Machine

/-! Memory (20_memory R62). -/

namespace Sys2Proof.Machine

/-- The register half of R62: no slot is held in the memory field. -/
@[simp] theorem read_memWrite (s : State) (a v : Word) (n : RegName) : (s.memWrite a v).read n = s.read n := by
  cases n with
  | gpr i => exact readReg_memWrite s i a v
  | pc => exact memWrite_pc s a v
  | psw => exact memWrite_psw s a v

/-- Settles O13: the word is read back by the law of `memStore`, an induction on the memory list that does not need it
to be canonical; the slots are outside the memory. -/
theorem memoryWriteThenRead : Obligations.MemoryWriteThenRead :=
  fun s a v b => ⟨memRead_memWrite s a b v, read_memWrite s a v⟩

end Sys2Proof.Machine

/-! The execution step (30_encoding R92). -/

namespace Sys2Proof.Machine

/-- R92 in one equation: the word at the PC is decoded, and its instruction runs in the state with the PC advanced. -/
theorem step_eq_exec_decode (s : State) : step s = exec (decode (s.memRead s.pc)) (s.setPc (s.pc + 1)) := by
  rw [step, fetch_word, fetch_state]

/-- Settles O23: R92 at the instruction the fetched word decodes to. -/
theorem stepRunsTheDecodedInstruction : Obligations.StepRunsTheDecodedInstruction := by
  intro s i hdecode
  rw [step_eq_exec_decode, hdecode]

end Sys2Proof.Machine


/-! The operate instructions ADD, AND and NOT (40_alu R121 to R125), and the shape of R88 their words share. -/

namespace Sys2Proof.Machine

/-! ## The fields of a word `oooo rrr aaa llllll` -/

section
variable (op : BitVec 4) (r a : BitVec 3) (low : BitVec 6)

theorem fieldOpcode_append_low6 : fieldOpcode (op ++ r ++ a ++ low) = op :=
  calc (op ++ r ++ a ++ low).extractLsb' 12 4
      = (op ++ r ++ a).extractLsb' 6 4 := BitVec.extractLsb'_append_eq_of_le (by decide)
    _ = (op ++ r).extractLsb' 3 4 := BitVec.extractLsb'_append_eq_of_le (by decide)
    _ = op := BitVec.extractLsb'_append_eq_left

theorem fieldHigh3_append_low6 : fieldHigh3 (op ++ r ++ a ++ low) = r :=
  calc (op ++ r ++ a ++ low).extractLsb' 9 3
      = (op ++ r ++ a).extractLsb' 3 3 := BitVec.extractLsb'_append_eq_of_le (by decide)
    _ = (op ++ r).extractLsb' 0 3 := BitVec.extractLsb'_append_eq_of_le (by decide)
    _ = r := BitVec.extractLsb'_append_eq_right

theorem fieldMid3_append_low6 : fieldMid3 (op ++ r ++ a ++ low) = a :=
  calc (op ++ r ++ a ++ low).extractLsb' 6 3
      = (op ++ r ++ a).extractLsb' 0 3 := BitVec.extractLsb'_append_eq_of_le (by decide)
    _ = a := BitVec.extractLsb'_append_eq_right

end

/-! ## The fields of the two operand forms, mode bit (bit 5) 0 or 1 -/

section
variable (op : BitVec 4) (r a : BitVec 3)

/-- Bits 5 to 0 in two parts are one six-bit tail. -/
theorem append_mode_low5 (mode : BitVec 1) (low : BitVec 5) :
    (op ++ r ++ a ++ mode ++ low : Word) = op ++ r ++ a ++ (mode ++ low) := BitVec.append_assoc

/-- Bit 5 chooses between the two forms (40_alu R121 to R124). -/
theorem getLsbD_five_append_mode (mode : BitVec 1) (low : BitVec 5) :
    (op ++ r ++ a ++ mode ++ low : Word).getLsbD 5 = mode.getLsbD 0 := by
  rw [BitVec.getLsbD_append, BitVec.getLsbD_append]
  rfl

/-- What the decoder reads from a word `oooo rrr aaa m lllll`, apart from its five low bits. -/
theorem fields_of_mode (mode : BitVec 1) (low : BitVec 5) :
    let ir : Word := op ++ r ++ a ++ mode ++ low
    fieldOpcode ir = op ∧ fieldHigh3 ir = r ∧ fieldMid3 ir = a ∧ ir.getLsbD 5 = mode.getLsbD 0 := by
  intro ir
  have hir : ir = op ++ r ++ a ++ (mode ++ low) := append_mode_low5 op r a mode low
  refine ⟨?_, ?_, ?_, getLsbD_five_append_mode op r a mode low⟩
  · rw [hir, fieldOpcode_append_low6]
  · rw [hir, fieldHigh3_append_low6]
  · rw [hir, fieldMid3_append_low6]

/-- What the decoder reads from a word `oooo rrr aaa 1 iiiii`. -/
theorem fields_of_imm (imm5 : BitVec 5) :
    let ir : Word := op ++ r ++ a ++ 0b1#1 ++ imm5
    fieldOpcode ir = op ∧ fieldHigh3 ir = r ∧ fieldMid3 ir = a ∧ ir.getLsbD 5 = true ∧ fieldImm5 ir = imm5 := by
  obtain ⟨hop, hhigh, hmid, hmode⟩ := fields_of_mode op r a 0b1#1 imm5
  exact ⟨hop, hhigh, hmid, hmode, BitVec.extractLsb'_append_eq_right⟩

/-- What the decoder reads from a word `oooo rrr aaa 0 xx bbb`, whatever the ignored bits `xx` (R87). -/
theorem fields_of_reg (ignored : BitVec 2) (b : BitVec 3) :
    let ir : Word := op ++ r ++ a ++ 0b0#1 ++ ignored ++ b
    fieldOpcode ir = op ∧ fieldHigh3 ir = r ∧ fieldMid3 ir = a ∧ ir.getLsbD 5 = false ∧ fieldLow3 ir = b := by
  intro ir
  have hir : ir = op ++ r ++ a ++ 0b0#1 ++ (ignored ++ b) := BitVec.append_assoc
  obtain ⟨hop, hhigh, hmid, hmode⟩ := fields_of_mode op r a 0b0#1 (ignored ++ b)
  exact ⟨hir ▸ hop, hir ▸ hhigh, hir ▸ hmid, hir ▸ hmode, BitVec.extractLsb'_append_eq_right⟩

end

/-! ## The decoder, by the opcode -/

theorem decode_of_opcode_add {ir : Word} (h : fieldOpcode ir = 0b0001#4) :
    decode ir = if ir.getLsbD 5 then .addImm (fieldHigh3 ir) (fieldMid3 ir) (fieldImm5 ir)
      else .addReg (fieldHigh3 ir) (fieldMid3 ir) (fieldLow3 ir) := by
  rw [decode, h]
  rfl

theorem decode_of_opcode_and {ir : Word} (h : fieldOpcode ir = 0b0101#4) :
    decode ir = if ir.getLsbD 5 then .andImm (fieldHigh3 ir) (fieldMid3 ir) (fieldImm5 ir)
      else .andReg (fieldHigh3 ir) (fieldMid3 ir) (fieldLow3 ir) := by
  rw [decode, h]
  rfl

theorem decode_of_opcode_not {ir : Word} (h : fieldOpcode ir = 0b1001#4) :
    decode ir = .not (fieldHigh3 ir) (fieldMid3 ir) := by
  rw [decode, h]
  rfl

/-! ## The five encodings (30_encoding R88) -/

section
variable (dr sr1 sr2 : RegIdx)

theorem decode_addReg_word (ignored : BitVec 2) :
    decode (0b0001#4 ++ dr ++ sr1 ++ 0b0#1 ++ ignored ++ sr2) = .addReg dr sr1 sr2 := by
  obtain ⟨hop, hdr, hsr1, hmode, hsr2⟩ := fields_of_reg 0b0001#4 dr sr1 ignored sr2
  rw [decode_of_opcode_add hop, hmode, hdr, hsr1, hsr2]
  rfl

theorem decode_addImm_word (imm5 : BitVec 5) :
    decode (0b0001#4 ++ dr ++ sr1 ++ 0b1#1 ++ imm5) = .addImm dr sr1 imm5 := by
  obtain ⟨hop, hdr, hsr1, hmode, himm⟩ := fields_of_imm 0b0001#4 dr sr1 imm5
  rw [decode_of_opcode_add hop, hmode, hdr, hsr1, himm]
  rfl

theorem decode_andReg_word (ignored : BitVec 2) :
    decode (0b0101#4 ++ dr ++ sr1 ++ 0b0#1 ++ ignored ++ sr2) = .andReg dr sr1 sr2 := by
  obtain ⟨hop, hdr, hsr1, hmode, hsr2⟩ := fields_of_reg 0b0101#4 dr sr1 ignored sr2
  rw [decode_of_opcode_and hop, hmode, hdr, hsr1, hsr2]
  rfl

theorem decode_andImm_word (imm5 : BitVec 5) :
    decode (0b0101#4 ++ dr ++ sr1 ++ 0b1#1 ++ imm5) = .andImm dr sr1 imm5 := by
  obtain ⟨hop, hdr, hsr1, hmode, himm⟩ := fields_of_imm 0b0101#4 dr sr1 imm5
  rw [decode_of_opcode_and hop, hmode, hdr, hsr1, himm]
  rfl

end

theorem decode_not_word (dr sr : RegIdx) (ignored : BitVec 6) :
    decode (0b1001#4 ++ dr ++ sr ++ ignored) = .not dr sr := by
  rw [decode_of_opcode_not (fieldOpcode_append_low6 _ dr sr ignored), fieldHigh3_append_low6, fieldMid3_append_low6]

/-! ## The effect -/

/-- A handler that is a result write succeeds, with that result, its flag and the frame (10_state R30). -/
theorem exec_resultWritten {i : Instr} {s : State} {dr : RegIdx} {v : Word}
    (h : exec i s = ok (writeResult dr v s)) : ∃ t, exec i s = .next t ∧ ResultWritten dr v s t :=
  ⟨writeResult dr v s, h, writeResult_spec dr v s⟩

theorem exec_addReg (dr sr1 sr2 : RegIdx) (s : State) :
    exec (.addReg dr sr1 sr2) s = ok (writeResult dr (s.readReg sr1 + s.readReg sr2) s) := rfl

theorem exec_addImm (dr sr1 : RegIdx) (imm5 : BitVec 5) (s : State) :
    exec (.addImm dr sr1 imm5) s = ok (writeResult dr (s.readReg sr1 + sext 5 imm5) s) := rfl

theorem exec_andReg (dr sr1 sr2 : RegIdx) (s : State) :
    exec (.andReg dr sr1 sr2) s = ok (writeResult dr (s.readReg sr1 &&& s.readReg sr2) s) := rfl

theorem exec_andImm (dr sr1 : RegIdx) (imm5 : BitVec 5) (s : State) :
    exec (.andImm dr sr1 imm5) s = ok (writeResult dr (s.readReg sr1 &&& sext 5 imm5) s) := rfl

theorem exec_not (dr sr : RegIdx) (s : State) :
    exec (.not dr sr) s = ok (writeResult dr (~~~(s.readReg sr)) s) := rfl

/-- Settles O25: the encoding whatever its two ignored bits hold, and the sum as the result written. -/
theorem addRegAdds : Obligations.AddRegAdds :=
  fun dr sr1 sr2 ignored s => ⟨decode_addReg_word dr sr1 sr2 ignored, exec_resultWritten (exec_addReg dr sr1 sr2 s)⟩

/-- Settles O26: the encoding, and the sum with the extended immediate as the result written. -/
theorem addImmAdds : Obligations.AddImmAdds :=
  fun dr sr1 imm5 s => ⟨decode_addImm_word dr sr1 imm5, exec_resultWritten (exec_addImm dr sr1 imm5 s)⟩

/-- Settles O27: the encoding whatever its two ignored bits hold, and the conjunction as the result written. -/
theorem andRegAnds : Obligations.AndRegAnds :=
  fun dr sr1 sr2 ignored s => ⟨decode_andReg_word dr sr1 sr2 ignored, exec_resultWritten (exec_andReg dr sr1 sr2 s)⟩

/-- Settles O28: the encoding, and the conjunction with the extended immediate as the result written. -/
theorem andImmAnds : Obligations.AndImmAnds :=
  fun dr sr1 imm5 s => ⟨decode_andImm_word dr sr1 imm5, exec_resultWritten (exec_andImm dr sr1 imm5 s)⟩

/-- Settles O29: the encoding whatever its six ignored bits hold (D12), and the complement as the result written. -/
theorem notComplements : Obligations.NotComplements :=
  fun dr sr ignored s => ⟨decode_not_word dr sr ignored, exec_resultWritten (exec_not dr sr s)⟩

end Sys2Proof.Machine

/-! The loads, the stores and LEA (41_load_store R143 to R149), and the shape of R88 that holds PCoffset9. -/

namespace Sys2Proof.Machine

/-! ## The fields of a word `oooo rrr iiiiiiiii` -/

/-- What the decoder reads from a word `oooo rrr iiiiiiiii`. -/
theorem fields_of_off9 (op : BitVec 4) (r : BitVec 3) (off9 : BitVec 9) :
    let ir : Word := op ++ r ++ off9
    fieldOpcode ir = op ∧ fieldHigh3 ir = r ∧ fieldOff9 ir = off9 := by
  refine ⟨?_, ?_, BitVec.extractLsb'_append_eq_right⟩
  · calc (op ++ r ++ off9).extractLsb' 12 4
        = (op ++ r).extractLsb' 3 4 := BitVec.extractLsb'_append_eq_of_le (by decide)
      _ = op := BitVec.extractLsb'_append_eq_left
  · calc (op ++ r ++ off9).extractLsb' 9 3
        = (op ++ r).extractLsb' 0 3 := BitVec.extractLsb'_append_eq_of_le (by decide)
      _ = r := BitVec.extractLsb'_append_eq_right

/-- The offset6 of a word `oooo rrr aaa iiiiii`, whose other fields stand with the operate instructions. -/
theorem fieldOff6_append_low6 (op : BitVec 4) (r a : BitVec 3) (low : BitVec 6) :
    fieldOff6 (op ++ r ++ a ++ low) = low :=
  BitVec.extractLsb'_append_eq_right

/-! ## The decoder, by the opcode -/

section
variable {ir : Word}

theorem decode_of_opcode_ld (h : fieldOpcode ir = 0b0010#4) : decode ir = .ld (fieldHigh3 ir) (fieldOff9 ir) := by
  rw [decode, h]
  rfl

theorem decode_of_opcode_st (h : fieldOpcode ir = 0b0011#4) : decode ir = .st (fieldHigh3 ir) (fieldOff9 ir) := by
  rw [decode, h]
  rfl

theorem decode_of_opcode_ldr (h : fieldOpcode ir = 0b0110#4) :
    decode ir = .ldr (fieldHigh3 ir) (fieldMid3 ir) (fieldOff6 ir) := by
  rw [decode, h]
  rfl

theorem decode_of_opcode_str (h : fieldOpcode ir = 0b0111#4) :
    decode ir = .str (fieldHigh3 ir) (fieldMid3 ir) (fieldOff6 ir) := by
  rw [decode, h]
  rfl

theorem decode_of_opcode_ldi (h : fieldOpcode ir = 0b1010#4) : decode ir = .ldi (fieldHigh3 ir) (fieldOff9 ir) := by
  rw [decode, h]
  rfl

theorem decode_of_opcode_sti (h : fieldOpcode ir = 0b1011#4) : decode ir = .sti (fieldHigh3 ir) (fieldOff9 ir) := by
  rw [decode, h]
  rfl

theorem decode_of_opcode_lea (h : fieldOpcode ir = 0b1110#4) : decode ir = .lea (fieldHigh3 ir) (fieldOff9 ir) := by
  rw [decode, h]
  rfl

end

/-! ## The seven encodings (30_encoding R88) -/

section
variable (r base : RegIdx) (off9 : BitVec 9) (off6 : BitVec 6)

theorem decode_ld_word : decode (0b0010#4 ++ r ++ off9) = .ld r off9 := by
  obtain ⟨hop, hr, hoff⟩ := fields_of_off9 0b0010#4 r off9
  rw [decode_of_opcode_ld hop, hr, hoff]

theorem decode_st_word : decode (0b0011#4 ++ r ++ off9) = .st r off9 := by
  obtain ⟨hop, hr, hoff⟩ := fields_of_off9 0b0011#4 r off9
  rw [decode_of_opcode_st hop, hr, hoff]

theorem decode_ldi_word : decode (0b1010#4 ++ r ++ off9) = .ldi r off9 := by
  obtain ⟨hop, hr, hoff⟩ := fields_of_off9 0b1010#4 r off9
  rw [decode_of_opcode_ldi hop, hr, hoff]

theorem decode_sti_word : decode (0b1011#4 ++ r ++ off9) = .sti r off9 := by
  obtain ⟨hop, hr, hoff⟩ := fields_of_off9 0b1011#4 r off9
  rw [decode_of_opcode_sti hop, hr, hoff]

theorem decode_lea_word : decode (0b1110#4 ++ r ++ off9) = .lea r off9 := by
  obtain ⟨hop, hr, hoff⟩ := fields_of_off9 0b1110#4 r off9
  rw [decode_of_opcode_lea hop, hr, hoff]

theorem decode_ldr_word : decode (0b0110#4 ++ r ++ base ++ off6) = .ldr r base off6 := by
  rw [decode_of_opcode_ldr (fieldOpcode_append_low6 _ r base off6), fieldHigh3_append_low6, fieldMid3_append_low6,
    fieldOff6_append_low6]

theorem decode_str_word : decode (0b0111#4 ++ r ++ base ++ off6) = .str r base off6 := by
  rw [decode_of_opcode_str (fieldOpcode_append_low6 _ r base off6), fieldHigh3_append_low6, fieldMid3_append_low6,
    fieldOff6_append_low6]

end

/-! ## The loads and LEA: the value the result write is given -/

section
variable (dr base : RegIdx) (off9 : BitVec 9) (off6 : BitVec 6) (s : State)

theorem exec_ld : exec (.ld dr off9) s = ok (writeResult dr (s.memRead (s.pc + sext 9 off9)) s) := rfl

theorem exec_ldr :
    exec (.ldr dr base off6) s = ok (writeResult dr (s.memRead (s.readReg base + sext 6 off6)) s) := rfl

theorem exec_ldi :
    exec (.ldi dr off9) s = ok (writeResult dr (s.memRead (s.memRead (s.pc + sext 9 off9))) s) := rfl

theorem exec_lea : exec (.lea dr off9) s = ok (writeResult dr (s.pc + sext 9 off9) s) := rfl

end

/-- Settles O30: the encoding, and the word at the PC-relative address as the result written. -/
theorem ldLoads : Obligations.LdLoads :=
  fun dr off9 s => ⟨decode_ld_word dr off9, exec_resultWritten (exec_ld dr off9 s)⟩

/-- Settles O32: the encoding, and the word at the base-plus-offset address as the result written; the address is that
of the state before the write, so DR = BaseR is no case of its own. -/
theorem ldrLoads : Obligations.LdrLoads :=
  fun dr base off6 s => ⟨decode_ldr_word dr base off6, exec_resultWritten (exec_ldr dr base off6 s)⟩

/-- Settles O35: the encoding, and the word at the pointer as the result written. -/
theorem ldiLoadsThroughThePointer : Obligations.LdiLoadsThroughThePointer :=
  fun dr off9 s => ⟨decode_ldi_word dr off9, exec_resultWritten (exec_ldi dr off9 s)⟩

/-- Settles O37: the encoding, and the PC-relative address itself as the result written. -/
theorem leaComputesTheAddress : Obligations.LeaComputesTheAddress :=
  fun dr off9 s => ⟨decode_lea_word dr off9, exec_resultWritten (exec_lea dr off9 s)⟩

/-! ## The stores: the address they store to -/

/-- A storing instruction succeeds, with its source register stored at its address and the frame. -/
theorem exec_stored {i : Instr} {s : State} {a : Word} {sr : RegIdx} (ha : storeAddr i s = some a)
    (hsr : storeSource i = some sr) : ∃ t, exec i s = .next t ∧ Stored a (s.readReg sr) s t :=
  ⟨s.memWrite a (s.readReg sr), exec_store i s a sr ha hsr, memWrite_spec a (s.readReg sr) s⟩

section
variable (sr base : RegIdx) (off9 : BitVec 9) (off6 : BitVec 6) (s : State)

theorem storeAddr_st : storeAddr (.st sr off9) s = some (s.pc + sext 9 off9) := rfl

theorem storeAddr_str : storeAddr (.str sr base off6) s = some (strAddr base off6 s) := rfl

theorem storeAddr_sti : storeAddr (.sti sr off9) s = some (s.memRead (s.pc + sext 9 off9)) := rfl

/-- The default setting: the offset is `ir[8:0]` (R146, D3). -/
theorem strAddr_of_nine (h : s.strOffsetWidth = .nine) :
    strAddr base off6 s = s.readReg base + sext 9 (base ++ off6) := by
  rw [strAddr, h, strOffset]

/-- The setting symmetric with LDR: the offset is `ir[5:0]` (R146, D3). -/
theorem strAddr_of_six (h : s.strOffsetWidth = .six) : strAddr base off6 s = s.readReg base + sext 6 off6 := by
  rw [strAddr, h, strOffset]

end

/-- Settles O31: the encoding, and the store at the PC-relative address. -/
theorem stStores : Obligations.StStores :=
  fun sr off9 s => ⟨decode_st_word sr off9, exec_stored (storeAddr_st sr off9 s) rfl⟩

/-- Settles O33: the encoding, and one store, at the address `strAddr` takes from the setting the state carries. -/
theorem strStoresUnderBothWidths : Obligations.StrStoresUnderBothWidths := by
  intro sr base off6 s
  obtain ⟨t, hexec, hstored⟩ := exec_stored (storeAddr_str sr base off6 s) rfl
  refine ⟨decode_str_word sr base off6, t, hexec, fun hnine => ?_, fun hsix => ?_⟩
  · rwa [strAddr_of_nine base off6 s hnine] at hstored
  · rwa [strAddr_of_six base off6 s hsix] at hstored

/-- Settles O36: the encoding, and the store at the pointer as it was read before the store. -/
theorem stiStoresThroughThePointer : Obligations.StiStoresThroughThePointer :=
  fun sr off9 s => ⟨decode_sti_word sr off9, exec_stored (storeAddr_sti sr off9 s) rfl⟩

end Sys2Proof.Machine

/-! The control instructions JSR, JSRR, JMP and TRAP (42_control R172 to R175), and the shapes of R88 their words have
beside those of the operate instructions. -/

namespace Sys2Proof.Machine

/-! ## The fields of a word `ooooo iiiiiiiiiii`, the opcode and the bit that chooses between JSR and JSRR -/

section
variable (head : BitVec 5) (low : BitVec 11)

theorem fieldOpcode_append_low11 : fieldOpcode (head ++ low) = head.extractLsb' 1 4 :=
  BitVec.extractLsb'_append_eq_of_le (by decide)

theorem fieldOff11_append_low11 : fieldOff11 (head ++ low) = low :=
  BitVec.extractLsb'_append_eq_right

/-- Bit 11 chooses between the two forms of the opcode (42_control R172, R173). -/
theorem getLsbD_eleven_append_low11 : (head ++ low : Word).getLsbD 11 = head.getLsbD 0 := by
  rw [BitVec.getLsbD_append]
  rfl

end

/-- What the decoder reads from a word `ooooo xx aaa llllll`: JSRR ignores the bits `xx` and `llllll` (R87). -/
theorem fields_of_base (head : BitVec 5) (high : BitVec 2) (a : BitVec 3) (low : BitVec 6) :
    let ir : Word := head ++ high ++ a ++ low
    fieldOpcode ir = head.extractLsb' 1 4 ∧ ir.getLsbD 11 = head.getLsbD 0 ∧ fieldMid3 ir = a := by
  intro ir
  have hir : ir = head ++ (high ++ (a ++ low)) :=
    calc head ++ high ++ a ++ low
        = head ++ high ++ (a ++ low) := BitVec.append_assoc
      _ = head ++ (high ++ (a ++ low)) := BitVec.append_assoc
  refine ⟨?_, ?_, ?_⟩
  · rw [hir, fieldOpcode_append_low11]
  · rw [hir, getLsbD_eleven_append_low11]
  · calc (head ++ high ++ a ++ low).extractLsb' 6 3
        = (head ++ high ++ a).extractLsb' 0 3 := BitVec.extractLsb'_append_eq_of_le (by decide)
      _ = a := BitVec.extractLsb'_append_eq_right

/-! ## The fields of a word `oooo xxxx vvvvvvvv` -/

/-- What the decoder reads from a word `oooo xxxx vvvvvvvv`, whatever the ignored bits `xxxx` (R87). -/
theorem fields_of_vect8 (op high : BitVec 4) (vect8 : BitVec 8) :
    let ir : Word := op ++ high ++ vect8
    fieldOpcode ir = op ∧ fieldVect8 ir = vect8 := by
  refine ⟨?_, BitVec.extractLsb'_append_eq_right⟩
  calc (op ++ high ++ vect8).extractLsb' 12 4
      = (op ++ high).extractLsb' 4 4 := BitVec.extractLsb'_append_eq_of_le (by decide)
    _ = op := BitVec.extractLsb'_append_eq_left

/-! ## The decoder, by the opcode -/

section
variable {ir : Word}

theorem decode_of_opcode_jsr (h : fieldOpcode ir = 0b0100#4) :
    decode ir = if ir.getLsbD 11 then .jsr (fieldOff11 ir) else .jsrr (fieldMid3 ir) := by
  rw [decode, h]
  rfl

theorem decode_of_opcode_jmp (h : fieldOpcode ir = 0b1100#4) : decode ir = .jmp (fieldMid3 ir) := by
  rw [decode, h]
  rfl

theorem decode_of_opcode_trap (h : fieldOpcode ir = 0b1111#4) : decode ir = .trap (fieldVect8 ir) := by
  rw [decode, h]
  rfl

end

/-! ## The four encodings (30_encoding R88) -/

theorem decode_jsr_word (off11 : BitVec 11) : decode (0b01001#5 ++ off11) = .jsr off11 := by
  rw [decode_of_opcode_jsr (fieldOpcode_append_low11 0b01001#5 off11), getLsbD_eleven_append_low11,
    fieldOff11_append_low11]
  rfl

theorem decode_jsrr_word (high : BitVec 2) (base : RegIdx) (low : BitVec 6) :
    decode (0b01000#5 ++ high ++ base ++ low) = .jsrr base := by
  obtain ⟨hop, hmode, hbase⟩ := fields_of_base 0b01000#5 high base low
  rw [decode_of_opcode_jsr hop, hmode, hbase]
  rfl

theorem decode_jmp_word (high : BitVec 3) (base : RegIdx) (low : BitVec 6) :
    decode (0b1100#4 ++ high ++ base ++ low) = .jmp base := by
  rw [decode_of_opcode_jmp (fieldOpcode_append_low6 _ high base low), fieldMid3_append_low6]

theorem decode_trap_word (high : BitVec 4) (vect8 : BitVec 8) :
    decode (0b1111#4 ++ high ++ vect8) = .trap vect8 := by
  obtain ⟨hop, hvect⟩ := fields_of_vect8 0b1111#4 high vect8
  rw [decode_of_opcode_trap hop, hvect]

/-! ## The effect: the target each handler jumps to -/

section
variable {i : Instr} {s : State} {target : Word}

/-- A handler that links and jumps succeeds, with the link, the target and the frame (42_control R176). -/
theorem exec_linkedTo (h : exec i s = ok (linkAndJump target s)) : ∃ t, exec i s = .next t ∧ LinkedTo target s t :=
  ⟨linkAndJump target s, h, linkAndJump_spec target s⟩

/-- A handler that only writes the PC succeeds, with the target and the frame. -/
theorem exec_jumpedTo (h : exec i s = ok (s.setPc target)) : ∃ t, exec i s = .next t ∧ JumpedTo target s t :=
  ⟨s.setPc target, h, setPc_spec target s⟩

end

theorem exec_jsr (off11 : BitVec 11) (s : State) :
    exec (.jsr off11) s = ok (linkAndJump (s.pc + sext 11 off11) s) := rfl

/-- The target is read in the state before R7 is written (D9). -/
theorem exec_jsrr (base : RegIdx) (s : State) : exec (.jsrr base) s = ok (linkAndJump (s.readReg base) s) := rfl

theorem exec_jmp (base : RegIdx) (s : State) : exec (.jmp base) s = ok (s.setPc (s.readReg base)) := rfl

theorem exec_trap (vect8 : BitVec 8) (s : State) :
    exec (.trap vect8) s = ok (linkAndJump (s.memRead (zext 8 vect8)) s) := rfl

/-- Settles O40: the encoding, and the link with the jump to the PC-relative target. -/
theorem jsrCalls : Obligations.JsrCalls :=
  fun off11 s => ⟨decode_jsr_word off11, exec_linkedTo (exec_jsr off11 s)⟩

/-- Settles O41: the encoding whatever its eight ignored bits hold (D12), and the link with the jump to the base
register as it was before the link, so BaseR = R7 is no case of its own (D9). -/
theorem jsrrCallsTheOldRegister : Obligations.JsrrCallsTheOldRegister :=
  fun high base low s => ⟨decode_jsrr_word high base low, exec_linkedTo (exec_jsrr base s)⟩

/-- Settles O42: the encoding whatever its nine ignored bits hold (D12), and the jump to the base register. -/
theorem jmpJumps : Obligations.JmpJumps :=
  fun high base low s => ⟨decode_jmp_word high base low, exec_jumpedTo (exec_jmp base s)⟩

/-- Settles O43: the encoding whatever its four ignored bits hold (D12), and the link with the jump to the word of the
vector table; the handler does not read the mode (D22). -/
theorem trapJumpsThroughTheVector : Obligations.TrapJumpsThroughTheVector :=
  fun high vect8 s => ⟨decode_trap_word high vect8, exec_linkedTo (exec_trap vect8 s)⟩

end Sys2Proof.Machine

/-! The encodings as a whole (30_encoding R83, R87, R88, R89): the format table as a relation between instructions and
words, and the agreement of the decoder, the encoder, the ignored bits and the opcode table with it. -/

namespace Sys2Proof.Machine

/-! ## The three encodings no family above has: BR, RTI, RESERVED -/

/-- The opcode of a word `oooo xxxxxxxxxxxx`. -/
theorem fieldOpcode_append_low12 (op : BitVec 4) (low : BitVec 12) : fieldOpcode (op ++ low) = op :=
  BitVec.extractLsb'_append_eq_left

section
variable {ir : Word}

theorem decode_of_opcode_br (h : fieldOpcode ir = 0b0000#4) : decode ir = .br (fieldHigh3 ir) (fieldOff9 ir) := by
  rw [decode, h]
  rfl

theorem decode_of_opcode_rti (h : fieldOpcode ir = 0b1000#4) : decode ir = .rti := by
  rw [decode, h]
  rfl

theorem decode_of_opcode_reserved (h : fieldOpcode ir = 0b1101#4) : decode ir = .reserved := by
  rw [decode, h]
  rfl

end

theorem decode_br_word (nzp : BitVec 3) (off9 : BitVec 9) : decode (0b0000#4 ++ nzp ++ off9) = .br nzp off9 := by
  obtain ⟨hop, hnzp, hoff⟩ := fields_of_off9 0b0000#4 nzp off9
  rw [decode_of_opcode_br hop, hnzp, hoff]

theorem decode_rti_word (low : BitVec 12) : decode (0b1000#4 ++ low) = .rti :=
  decode_of_opcode_rti (fieldOpcode_append_low12 _ low)

theorem decode_reserved_word (low : BitVec 12) : decode (0b1101#4 ++ low) = .reserved :=
  decode_of_opcode_reserved (fieldOpcode_append_low12 _ low)

/-! ## The format table -/

/-- The format table of R88: the words of each instruction, the ignored bits (R87) free. -/
inductive Encodes : Instr → Word → Prop where
  | br (nzp : BitVec 3) (off9 : BitVec 9) : Encodes (.br nzp off9) (0b0000#4 ++ nzp ++ off9)
  | addReg (dr sr1 sr2 : RegIdx) (ignored : BitVec 2) :
    Encodes (.addReg dr sr1 sr2) (0b0001#4 ++ dr ++ sr1 ++ 0b0#1 ++ ignored ++ sr2)
  | addImm (dr sr1 : RegIdx) (imm5 : BitVec 5) : Encodes (.addImm dr sr1 imm5) (0b0001#4 ++ dr ++ sr1 ++ 0b1#1 ++ imm5)
  | ld (dr : RegIdx) (off9 : BitVec 9) : Encodes (.ld dr off9) (0b0010#4 ++ dr ++ off9)
  | st (sr : RegIdx) (off9 : BitVec 9) : Encodes (.st sr off9) (0b0011#4 ++ sr ++ off9)
  | jsr (off11 : BitVec 11) : Encodes (.jsr off11) (0b01001#5 ++ off11)
  | jsrr (high : BitVec 2) (base : RegIdx) (low : BitVec 6) : Encodes (.jsrr base) (0b01000#5 ++ high ++ base ++ low)
  | andReg (dr sr1 sr2 : RegIdx) (ignored : BitVec 2) :
    Encodes (.andReg dr sr1 sr2) (0b0101#4 ++ dr ++ sr1 ++ 0b0#1 ++ ignored ++ sr2)
  | andImm (dr sr1 : RegIdx) (imm5 : BitVec 5) : Encodes (.andImm dr sr1 imm5) (0b0101#4 ++ dr ++ sr1 ++ 0b1#1 ++ imm5)
  | ldr (dr base : RegIdx) (off6 : BitVec 6) : Encodes (.ldr dr base off6) (0b0110#4 ++ dr ++ base ++ off6)
  | str (sr base : RegIdx) (off6 : BitVec 6) : Encodes (.str sr base off6) (0b0111#4 ++ sr ++ base ++ off6)
  | rti (ignored : BitVec 12) : Encodes .rti (0b1000#4 ++ ignored)
  | not (dr sr : RegIdx) (ignored : BitVec 6) : Encodes (.not dr sr) (0b1001#4 ++ dr ++ sr ++ ignored)
  | ldi (dr : RegIdx) (off9 : BitVec 9) : Encodes (.ldi dr off9) (0b1010#4 ++ dr ++ off9)
  | sti (sr : RegIdx) (off9 : BitVec 9) : Encodes (.sti sr off9) (0b1011#4 ++ sr ++ off9)
  | jmp (high : BitVec 3) (base : RegIdx) (low : BitVec 6) : Encodes (.jmp base) (0b1100#4 ++ high ++ base ++ low)
  | reserved (ignored : BitVec 12) : Encodes .reserved (0b1101#4 ++ ignored)
  | lea (dr : RegIdx) (off9 : BitVec 9) : Encodes (.lea dr off9) (0b1110#4 ++ dr ++ off9)
  | trap (high : BitVec 4) (vect8 : BitVec 8) : Encodes (.trap vect8) (0b1111#4 ++ high ++ vect8)

/-- The decoder answers the format table. -/
theorem decode_of_encodes {i : Instr} {w : Word} (h : Encodes i w) : decode w = i := by
  cases h with
  | br nzp off9 => exact decode_br_word nzp off9
  | addReg dr sr1 sr2 ignored => exact decode_addReg_word dr sr1 sr2 ignored
  | addImm dr sr1 imm5 => exact decode_addImm_word dr sr1 imm5
  | ld dr off9 => exact decode_ld_word dr off9
  | st sr off9 => exact decode_st_word sr off9
  | jsr off11 => exact decode_jsr_word off11
  | jsrr high base low => exact decode_jsrr_word high base low
  | andReg dr sr1 sr2 ignored => exact decode_andReg_word dr sr1 sr2 ignored
  | andImm dr sr1 imm5 => exact decode_andImm_word dr sr1 imm5
  | ldr dr base off6 => exact decode_ldr_word dr base off6
  | str sr base off6 => exact decode_str_word sr base off6
  | rti ignored => exact decode_rti_word ignored
  | not dr sr ignored => exact decode_not_word dr sr ignored
  | ldi dr off9 => exact decode_ldi_word dr off9
  | sti sr off9 => exact decode_sti_word sr off9
  | jmp high base low => exact decode_jmp_word high base low
  | reserved ignored => exact decode_reserved_word ignored
  | lea dr off9 => exact decode_lea_word dr off9
  | trap high vect8 => exact decode_trap_word high vect8

/-! ## The encoder writes a word of the table -/

/-- The encoder's three zeros of the register form are the mode bit and the two ignored bits. -/
theorem append_zeros3 (op : BitVec 4) (r a b : BitVec 3) :
    (op ++ r ++ a ++ 0b000#3 ++ b : Word) = op ++ r ++ a ++ 0b0#1 ++ 0b00#2 ++ b :=
  congrArg (· ++ b) (BitVec.append_assoc (x₁ := op ++ r ++ a) (x₂ := 0b0#1) (x₃ := 0b00#2)).symm

theorem encodes_encode (i : Instr) : Encodes i (encode i) := by
  cases i with
  | br nzp off9 => exact .br nzp off9
  | addReg dr sr1 sr2 =>
    rw [encode, append_zeros3]
    exact .addReg dr sr1 sr2 0b00#2
  | addImm dr sr1 imm5 => exact .addImm dr sr1 imm5
  | ld dr off9 => exact .ld dr off9
  | st sr off9 => exact .st sr off9
  | jsr off11 => exact .jsr off11
  | jsrr base => exact .jsrr 0b00#2 base 0b000000#6
  | andReg dr sr1 sr2 =>
    rw [encode, append_zeros3]
    exact .andReg dr sr1 sr2 0b00#2
  | andImm dr sr1 imm5 => exact .andImm dr sr1 imm5
  | ldr dr base off6 => exact .ldr dr base off6
  | str sr base off6 => exact .str sr base off6
  | rti => exact .rti 0#12
  | not dr sr => exact .not dr sr 0b111111#6
  | ldi dr off9 => exact .ldi dr off9
  | sti sr off9 => exact .sti sr off9
  | jmp base => exact .jmp 0b000#3 base 0b000000#6
  | reserved => exact .reserved 0#12
  | lea dr off9 => exact .lea dr off9
  | trap vect8 => exact .trap 0b0000#4 vect8

/-- Settles O18: the encoder writes a word of the format table, and the decoder answers the table. -/
theorem decodeOfEncode : Obligations.DecodeOfEncode :=
  fun i => decode_of_encodes (encodes_encode i)

/-! ## The parts of a word -/

theorem exists_append (n m : Nat) (x : BitVec (n + m)) : ∃ (hi : BitVec n) (lo : BitVec m), x = hi ++ lo :=
  ⟨_, _, BitVec.extractLsb'_append_extractLsb'.symm⟩

/-- The low part of a word is itself two parts; at widths given as numerals the cast is no change. -/
theorem exists_append_append {n : Nat} (m k : Nat) (head : BitVec n) (low : BitVec (m + k)) :
    ∃ (hi : BitVec m) (lo : BitVec k), head ++ low = (head ++ hi ++ lo).cast (Nat.add_assoc n m k) := by
  obtain ⟨hi, lo, rfl⟩ := exists_append m k low
  exact ⟨hi, lo, BitVec.append_assoc' ..⟩

section
variable {w : Word} {op : BitVec 4} (h : fieldOpcode w = op)
include h

theorem exists_low12 : ∃ low : BitVec 12, w = op ++ low := by
  obtain ⟨_, low, rfl⟩ := exists_append 4 12 w
  exact ⟨low, by rw [← h, fieldOpcode_append_low12]⟩

theorem exists_off9 : ∃ (r : BitVec 3) (off9 : BitVec 9), w = op ++ r ++ off9 := by
  obtain ⟨low, rfl⟩ := exists_low12 h
  exact exists_append_append 3 9 op low

theorem exists_low6 : ∃ (r a : BitVec 3) (low : BitVec 6), w = op ++ r ++ a ++ low := by
  obtain ⟨r, off9, rfl⟩ := exists_off9 h
  exact ⟨r, exists_append_append 3 6 (op ++ r) off9⟩

theorem exists_mode : ∃ (r a : BitVec 3) (mode : BitVec 1) (low : BitVec 5), w = op ++ r ++ a ++ mode ++ low := by
  obtain ⟨r, a, low, rfl⟩ := exists_low6 h
  exact ⟨r, a, exists_append_append 1 5 (op ++ r ++ a) low⟩

theorem exists_low11 : ∃ (mode : BitVec 1) (low : BitVec 11), w = op ++ mode ++ low := by
  obtain ⟨low, rfl⟩ := exists_low12 h
  exact exists_append_append 1 11 op low

theorem exists_vect8 : ∃ (high : BitVec 4) (vect8 : BitVec 8), w = op ++ high ++ vect8 := by
  obtain ⟨low, rfl⟩ := exists_low12 h
  exact exists_append_append 4 8 op low

end

theorem bit_cases : ∀ b : BitVec 1, b = 0b0#1 ∨ b = 0b1#1 := by decide

theorem opcode_cases : ∀ op : BitVec 4,
    op = 0b0000#4 ∨ op = 0b0001#4 ∨ op = 0b0010#4 ∨ op = 0b0011#4 ∨ op = 0b0100#4 ∨ op = 0b0101#4 ∨ op = 0b0110#4 ∨
    op = 0b0111#4 ∨ op = 0b1000#4 ∨ op = 0b1001#4 ∨ op = 0b1010#4 ∨ op = 0b1011#4 ∨ op = 0b1100#4 ∨ op = 0b1101#4 ∨
    op = 0b1110#4 ∨ op = 0b1111#4 := by decide

/-! ## Every word is a word of the table -/

/-- The word of an opcode with a register and an immediate form is of the table, when both forms are. -/
theorem exists_encodes_operate {op : BitVec 4} {w : Word} (h : fieldOpcode w = op)
    {reg : RegIdx → RegIdx → RegIdx → Instr} {imm : RegIdx → RegIdx → BitVec 5 → Instr}
    (hreg : ∀ (dr sr1 sr2 : RegIdx) (ignored : BitVec 2),
      Encodes (reg dr sr1 sr2) (op ++ dr ++ sr1 ++ 0b0#1 ++ ignored ++ sr2))
    (himm : ∀ (dr sr1 : RegIdx) (imm5 : BitVec 5), Encodes (imm dr sr1 imm5) (op ++ dr ++ sr1 ++ 0b1#1 ++ imm5)) :
    ∃ i, Encodes i w := by
  obtain ⟨dr, sr1, mode, low, rfl⟩ := exists_mode h
  obtain rfl | rfl := bit_cases mode
  · obtain ⟨ignored, sr2, hlow⟩ := exists_append_append 2 3 (op ++ dr ++ sr1 ++ 0b0#1) low
    exact ⟨reg dr sr1 sr2, hlow ▸ hreg dr sr1 sr2 ignored⟩
  · exact ⟨imm dr sr1 low, himm dr sr1 low⟩

/-- The word of opcode 0100 is a JSR or, with its low bits in three parts, a JSRR. -/
theorem exists_encodes_jsr {w : Word} (h : fieldOpcode w = 0b0100#4) : ∃ i, Encodes i w := by
  obtain ⟨mode, low, rfl⟩ := exists_low11 h
  obtain rfl | rfl := bit_cases mode
  · obtain ⟨high, off9, hhigh⟩ := exists_append_append 2 9 0b01000#5 low
    obtain ⟨base, low6, hbase⟩ := exists_append_append 3 6 (0b01000#5 ++ high) off9
    have hw : (0b0100#4 ++ 0b0#1 ++ low : Word) = 0b01000#5 ++ high ++ base ++ low6 := hhigh.trans hbase
    exact ⟨.jsrr base, hw ▸ .jsrr high base low6⟩
  · exact ⟨.jsr low, .jsr low⟩

theorem exists_encodes (w : Word) : ∃ i, Encodes i w := by
  obtain h | h | h | h | h | h | h | h | h | h | h | h | h | h | h | h := opcode_cases (fieldOpcode w)
  · obtain ⟨nzp, off9, rfl⟩ := exists_off9 h
    exact ⟨_, .br nzp off9⟩
  · exact exists_encodes_operate h .addReg .addImm
  · obtain ⟨dr, off9, rfl⟩ := exists_off9 h
    exact ⟨_, .ld dr off9⟩
  · obtain ⟨sr, off9, rfl⟩ := exists_off9 h
    exact ⟨_, .st sr off9⟩
  · exact exists_encodes_jsr h
  · exact exists_encodes_operate h .andReg .andImm
  · obtain ⟨dr, base, off6, rfl⟩ := exists_low6 h
    exact ⟨_, .ldr dr base off6⟩
  · obtain ⟨sr, base, off6, rfl⟩ := exists_low6 h
    exact ⟨_, .str sr base off6⟩
  · obtain ⟨ignored, rfl⟩ := exists_low12 h
    exact ⟨_, .rti ignored⟩
  · obtain ⟨dr, sr, ignored, rfl⟩ := exists_low6 h
    exact ⟨_, .not dr sr ignored⟩
  · obtain ⟨dr, off9, rfl⟩ := exists_off9 h
    exact ⟨_, .ldi dr off9⟩
  · obtain ⟨sr, off9, rfl⟩ := exists_off9 h
    exact ⟨_, .sti sr off9⟩
  · obtain ⟨high, base, low, rfl⟩ := exists_low6 h
    exact ⟨_, .jmp high base low⟩
  · obtain ⟨ignored, rfl⟩ := exists_low12 h
    exact ⟨_, .reserved ignored⟩
  · obtain ⟨dr, off9, rfl⟩ := exists_off9 h
    exact ⟨_, .lea dr off9⟩
  · obtain ⟨high, vect8, rfl⟩ := exists_vect8 h
    exact ⟨_, .trap high vect8⟩

/-- The table and the decoder are one relation. -/
theorem encodes_iff_decode_eq {i : Instr} {w : Word} : Encodes i w ↔ decode w = i := by
  refine ⟨decode_of_encodes, fun h => ?_⟩
  obtain ⟨j, hj⟩ := exists_encodes w
  rwa [← h, decode_of_encodes hj]

theorem encodes_decode (w : Word) : Encodes (decode w) w := encodes_iff_decode_eq.mpr rfl

/-! ## The ignored bits -/

section
variable {n k : Nat}

/-- Bits flipped under a mask in two parts are flipped in each part. -/
theorem append_flip (hi maskHi : BitVec n) (lo maskLo : BitVec k) (m : BitVec (n + k)) :
    (hi ++ lo) ^^^ (m &&& (maskHi ++ maskLo)) =
      (hi ^^^ (m.extractLsb' k n &&& maskHi)) ++ (lo ^^^ (m.extractLsb' 0 k &&& maskLo)) := by
  obtain ⟨mHi, mLo, rfl⟩ := exists_append n k m
  rw [BitVec.and_append, BitVec.xor_append, BitVec.extractLsb'_append_eq_left, BitVec.extractLsb'_append_eq_right]

/-- A flip under the empty mask is none. -/
theorem flip_zero (x m : BitVec n) : x ^^^ (m &&& 0#n) = x := by rw [BitVec.and_zero, BitVec.xor_zero]

/-- Words in two parts agree outside a mask in two parts when their parts do. -/
theorem append_outside {hi hi' maskHi : BitVec n} {lo lo' maskLo : BitVec k}
    (hhi : hi &&& ~~~maskHi = hi' &&& ~~~maskHi) (hlo : lo &&& ~~~maskLo = lo' &&& ~~~maskLo) :
    (hi ++ lo) &&& ~~~(maskHi ++ maskLo) = (hi' ++ lo') &&& ~~~(maskHi ++ maskLo) := by
  rw [BitVec.not_append, BitVec.and_append, BitVec.and_append, hhi, hlo]

/-- Any two words agree outside the full mask. -/
theorem outside_all {mask : BitVec n} (h : ~~~mask = 0#n) (x y : BitVec n) : x &&& ~~~mask = y &&& ~~~mask := by
  rw [h, BitVec.and_zero, BitVec.and_zero]

end

section
variable (r a b : RegIdx)

theorem ignoredBits_addReg : ignoredBits (.addReg r a b) = 0#11 ++ 0b11#2 ++ 0#3 := rfl

theorem ignoredBits_andReg : ignoredBits (.andReg r a b) = 0#11 ++ 0b11#2 ++ 0#3 := rfl

theorem ignoredBits_not : ignoredBits (.not r a) = 0#10 ++ 0b111111#6 := rfl

theorem ignoredBits_jsrr : ignoredBits (.jsrr a) = 0#5 ++ 0b11#2 ++ 0#3 ++ 0b111111#6 := rfl

theorem ignoredBits_jmp : ignoredBits (.jmp a) = 0#4 ++ 0b111#3 ++ 0#3 ++ 0b111111#6 := rfl

end

theorem ignoredBits_rti : ignoredBits .rti = 0#4 ++ 0xFFF#12 := rfl

theorem ignoredBits_reserved : ignoredBits .reserved = 0#4 ++ 0xFFF#12 := rfl

theorem ignoredBits_trap (vect8 : BitVec 8) : ignoredBits (.trap vect8) = 0#4 ++ 0b1111#4 ++ 0#8 := rfl

/-- The ignored bits are free in the format table. -/
theorem encodes_flip_ignored {i : Instr} {w : Word} (h : Encodes i w) (m : Word) :
    Encodes i (w ^^^ (m &&& ignoredBits i)) := by
  by_cases hnone : ignoredBits i = 0#16
  · rwa [hnone, flip_zero]
  cases h with
  | addReg dr sr1 sr2 ignored =>
    rw [ignoredBits_addReg, append_flip, append_flip, flip_zero, flip_zero]
    exact .addReg dr sr1 sr2 _
  | andReg dr sr1 sr2 ignored =>
    rw [ignoredBits_andReg, append_flip, append_flip, flip_zero, flip_zero]
    exact .andReg dr sr1 sr2 _
  | not dr sr ignored =>
    rw [ignoredBits_not, append_flip, flip_zero]
    exact .not dr sr _
  | jsrr high base low =>
    rw [ignoredBits_jsrr, append_flip, append_flip, append_flip, flip_zero, flip_zero]
    exact .jsrr _ base _
  | jmp high base low =>
    rw [ignoredBits_jmp, append_flip, append_flip, append_flip, flip_zero, flip_zero]
    exact .jmp _ base _
  | rti ignored =>
    rw [ignoredBits_rti, append_flip, flip_zero]
    exact .rti _
  | reserved ignored =>
    rw [ignoredBits_reserved, append_flip, flip_zero]
    exact .reserved _
  | trap high vect8 =>
    rw [ignoredBits_trap, append_flip, append_flip, flip_zero, flip_zero]
    exact .trap _ vect8
  | _ => exact absurd rfl hnone

/-- Two words of the table for one instruction differ in ignored bits only. -/
theorem encodes_outside_ignored {i : Instr} {w w' : Word} (h : Encodes i w) (h' : Encodes i w') :
    w &&& ~~~(ignoredBits i) = w' &&& ~~~(ignoredBits i) := by
  cases h with
  | addReg dr sr1 sr2 ignored =>
    cases h'
    rw [ignoredBits_addReg]
    exact append_outside (append_outside rfl (outside_all rfl _ _)) rfl
  | andReg dr sr1 sr2 ignored =>
    cases h'
    rw [ignoredBits_andReg]
    exact append_outside (append_outside rfl (outside_all rfl _ _)) rfl
  | not dr sr ignored =>
    cases h'
    rw [ignoredBits_not]
    exact append_outside rfl (outside_all rfl _ _)
  | jsrr high base low =>
    cases h'
    rw [ignoredBits_jsrr]
    exact append_outside (append_outside (append_outside rfl (outside_all rfl _ _)) rfl) (outside_all rfl _ _)
  | jmp high base low =>
    cases h'
    rw [ignoredBits_jmp]
    exact append_outside (append_outside (append_outside rfl (outside_all rfl _ _)) rfl) (outside_all rfl _ _)
  | rti ignored =>
    cases h'
    rw [ignoredBits_rti]
    exact append_outside rfl (outside_all rfl _ _)
  | reserved ignored =>
    cases h'
    rw [ignoredBits_reserved]
    exact append_outside rfl (outside_all rfl _ _)
  | trap high vect8 =>
    cases h'
    rw [ignoredBits_trap]
    exact append_outside (append_outside rfl (outside_all rfl _ _)) rfl
  | _ => cases h'; rfl

/-- Settles O19: a word is of the table for what it decodes to, and so is the canonical word. -/
theorem decodeDropsOnlyIgnoredBits : Obligations.DecodeDropsOnlyIgnoredBits :=
  fun w => encodes_outside_ignored (encodes_encode _) (encodes_decode w)

/-- Settles O20: the flipped word is of the table for the same instruction. -/
theorem ignoredBitsSelectNothing : Obligations.IgnoredBitsSelectNothing :=
  fun w m => decode_of_encodes (encodes_flip_ignored (encodes_decode w) m)

/-! ## The rows of the opcode table -/

/-- The numbers of the opcode table's nineteen rows, match and mask. -/
def opcodeTable : List (Word × Word) :=
  [(0x0000, 0xF000), (0x1000, 0xF020), (0x1020, 0xF020), (0x2000, 0xF000), (0x3000, 0xF000), (0x4800, 0xF800),
    (0x4000, 0xF800), (0x5000, 0xF020), (0x5020, 0xF020), (0x6000, 0xF000), (0x7000, 0xF000), (0x8000, 0xF000),
    (0x9000, 0xF000), (0xA000, 0xF000), (0xB000, 0xF000), (0xC000, 0xF000), (0xD000, 0xF000), (0xE000, 0xF000),
    (0xF000, 0xF000)]

theorem row_mem_opcodeTable (i : Instr) : (tableMatch i, tableMask i) ∈ opcodeTable := by
  cases i <;> simp [opcodeTable, tableMatch, tableMask]

/-- No two rows share a word: their matches differ at a bit that both masks select. -/
theorem opcodeTable_pairwise : opcodeTable.Pairwise fun p q => p.1 &&& q.2 ≠ q.1 &&& p.2 := by
  decide

theorem tableMatch_eq_of_mask {i j : Instr} {w : Word} (hi : w &&& tableMask i = tableMatch i)
    (hj : w &&& tableMask j = tableMatch j) : tableMatch i = tableMatch j := by
  have hshared : tableMatch i &&& tableMask j = tableMatch j &&& tableMask i :=
    calc tableMatch i &&& tableMask j
        = w &&& tableMask i &&& tableMask j := by rw [hi]
      _ = w &&& tableMask j &&& tableMask i := by rw [BitVec.and_assoc, BitVec.and_comm (tableMask i), BitVec.and_assoc]
      _ = tableMatch j &&& tableMask i := by rw [hj]
  have hsymm : Std.Symm fun p q : Word × Word => p.1 &&& q.2 ≠ q.1 &&& p.2 := ⟨fun _ _ h => h.symm⟩
  by_contra hne
  exact opcodeTable_pairwise.forall (row_mem_opcodeTable i) (row_mem_opcodeTable j)
    (fun h => hne (congrArg Prod.fst h)) hshared

/-- The canonical word of each instruction lies in its row, form by form (Laws/PerInstr). -/
theorem encode_and_tableMask (i : Instr) : encode i &&& tableMask i = tableMatch i := by
  cases i with
  | br nzp off9 => exact Laws.TableRow.br nzp off9
  | addReg dr sr1 sr2 => exact Laws.TableRow.addReg dr sr1 sr2
  | addImm dr sr1 imm5 => exact Laws.TableRow.addImm dr sr1 imm5
  | ld dr off9 => exact Laws.TableRow.ld dr off9
  | st sr off9 => exact Laws.TableRow.st sr off9
  | jsr off11 => exact Laws.TableRow.jsr off11
  | jsrr base => exact Laws.TableRow.jsrr base
  | andReg dr sr1 sr2 => exact Laws.TableRow.andReg dr sr1 sr2
  | andImm dr sr1 imm5 => exact Laws.TableRow.andImm dr sr1 imm5
  | ldr dr base off6 => exact Laws.TableRow.ldr dr base off6
  | str sr base off6 => exact Laws.TableRow.str sr base off6
  | rti => exact Laws.TableRow.rti
  | not dr sr => exact Laws.TableRow.not dr sr
  | ldi dr off9 => exact Laws.TableRow.ldi dr off9
  | sti sr off9 => exact Laws.TableRow.sti sr off9
  | jmp base => exact Laws.TableRow.jmp base
  | reserved => exact Laws.TableRow.reserved
  | lea dr off9 => exact Laws.TableRow.lea dr off9
  | trap vect8 => exact Laws.TableRow.trap vect8

/-- No ignored bit selects the row. -/
theorem outside_ignored_and_tableMask (i : Instr) : ~~~(ignoredBits i) &&& tableMask i = tableMask i := by
  cases i <;> (rw [ignoredBits, tableMask]; decide)

theorem and_tableMask_decode (w : Word) : w &&& tableMask (decode w) = tableMatch (decode w) := by
  have houtside := encodes_outside_ignored (encodes_encode _) (encodes_decode w)
  generalize decode w = i at houtside ⊢
  calc w &&& tableMask i
      = w &&& ~~~(ignoredBits i) &&& tableMask i := by rw [BitVec.and_assoc, outside_ignored_and_tableMask]
    _ = encode i &&& ~~~(ignoredBits i) &&& tableMask i := by rw [houtside]
    _ = tableMatch i := by rw [BitVec.and_assoc, outside_ignored_and_tableMask, encode_and_tableMask]

/-- Settles O21: the row of the decoded instruction holds the canonical word, hence, up to ignored bits, the word; and
the rows are disjoint. -/
theorem everyWordHasOneRow : Obligations.EveryWordHasOneRow :=
  fun w => ⟨and_tableMask_decode w, fun _ hi => tableMatch_eq_of_mask hi (and_tableMask_decode w)⟩

/-! ## The reserved words -/

theorem decode_eq_reserved_iff (w : Word) : decode w = .reserved ↔ fieldOpcode w = 0b1101#4 := by
  refine ⟨fun h => ?_, decode_of_opcode_reserved⟩
  cases encodes_iff_decode_eq.mpr h with
  | reserved ignored => exact fieldOpcode_append_low12 _ ignored

/-- Settles O22: the opcode of a word is its value divided by 4096. -/
theorem reservedWordsExactly : Obligations.ReservedWordsExactly := by
  intro w
  have hop : (fieldOpcode w).toNat = w.toNat / 4096 := by
    rw [fieldOpcode, BitVec.extractLsb'_toNat, Nat.shiftRight_eq_div_pow]
    omega
  rw [decode_eq_reserved_iff, ← BitVec.toNat_inj, hop]
  simp only [BitVec.toNat_ofNat]
  omega

/-- Settles O17: the decoder evaluated on the fifteen words. -/
theorem knownWordsDecode : Obligations.KnownWordsDecode := by
  unfold Obligations.KnownWordsDecode
  decide

end Sys2Proof.Machine

/-! What every instruction keeps (10_state R21, R27, R30, R31; 20_memory R70; 60_exceptions R211, R212): each fact read
off the five effects of `exec_next`, then carried to the step. -/

namespace Sys2Proof.Machine

/-! ## A step that succeeds -/

/-- A step that succeeds is the success of the decoded instruction at the advanced PC. -/
theorem exec_decode_of_step {s t : State} (h : step s = .next t) :
    exec (decode (s.memRead s.pc)) (s.setPc (s.pc + 1)) = .next t :=
  (step_eq_exec_decode s).symm.trans h

/-! ## Memory -/

/-- Settles O14: of the five effects only the memory write changes a word, and it is the one at `storeAddr`. -/
theorem onlyTheStoredWordChanges : Obligations.OnlyTheStoredWordChanges := by
  intro i s t hexec b hb
  obtain ⟨dr, v, -, -, -, rfl⟩ | ⟨a, v, -, -, ha, rfl⟩ | ⟨target, -, -, -, rfl⟩ | ⟨target, -, -, -, rfl⟩ |
    ⟨-, -, rfl⟩ := exec_next i s t hexec
  · rfl
  · exact memRead_memWrite_ne s a b v fun hba => hb (hba ▸ ha)
  · rfl
  · rfl
  · rfl

theorem canonical_exec {i : Instr} {s t : State} (hs : Canonical s) (hexec : exec i s = .next t) : Canonical t := by
  obtain ⟨dr, v, -, -, -, rfl⟩ | ⟨a, v, -, -, -, rfl⟩ | ⟨target, -, -, -, rfl⟩ | ⟨target, -, -, -, rfl⟩ | ⟨-, -, rfl⟩ :=
    exec_next i s t hexec
  · exact hs
  · exact memWf_memWrite s a v hs
  · exact hs
  · exact hs
  · exact hs

/-- Settles O54: the advance of the PC leaves the memory, and the instruction keeps its form. -/
theorem stepKeepsMemoryCanonical : Obligations.StepKeepsMemoryCanonical :=
  fun s _ hs hstep => canonical_exec (s := s.setPc (s.pc + 1)) hs (exec_decode_of_step hstep)

/-- Settles O55: the memory at reset lists no cell. -/
theorem resetMemoryIsCanonical : Obligations.ResetMemoryIsCanonical := memWf_reset

/-- Settles O12: at reset no cell is listed, so every address reads as the parameter. -/
theorem resetMemoryIsInitMem : Obligations.ResetMemoryIsInitMem := fun _ => rfl

/-! ## The general-purpose registers and the parameter -/

/-- Settles O15: a result write changes DR, a link R7, a popped frame R6, and the other two effects no register. -/
theorem onlyTheDestinationRegisterChanges : Obligations.OnlyTheDestinationRegisterChanges := by
  intro i s t hexec r hr
  obtain ⟨dr, v, -, hdr, -, rfl⟩ | ⟨a, v, -, -, -, rfl⟩ | ⟨target, -, -, -, rfl⟩ | ⟨target, -, h7, -, rfl⟩ |
    ⟨rfl, -, rfl⟩ := exec_next i s t hexec
  · exact readReg_writeReg_ne s dr r v fun e => hr (e ▸ hdr)
  · rfl
  · rfl
  · exact readReg_writeReg_ne s linkReg r s.pc fun e => hr (e ▸ h7)
  · exact readReg_writeReg_ne s frameReg r _ fun e => hr (e ▸ rfl)

/-- Settles O56: none of the five effects writes the parameter. -/
theorem strOffsetWidthIsFixed : Obligations.StrOffsetWidthIsFixed := by
  intro s t hstep
  obtain ⟨dr, v, -, -, -, rfl⟩ | ⟨a, v, -, -, -, rfl⟩ | ⟨target, -, -, -, rfl⟩ | ⟨target, -, -, -, rfl⟩ | ⟨-, -, rfl⟩ :=
    exec_next _ _ t (exec_decode_of_step hstep)
  all_goals rfl

/-! ## The processor status word -/

/-- What a handler that succeeds does to the PSW: the result write of its flag destination, nothing, or the pop of RTI's
frame. -/
theorem exec_next_psw {i : Instr} {s t : State} (hexec : exec i s = .next t) :
    (∃ dr v, flagDest i = some dr ∧ t = writeResult dr v s) ∨ (flagDest i = none ∧ i ≠ .rti ∧ t.psw = s.psw) ∨
      (i = .rti ∧ s.getMode = .privileged ∧ t = popFrame s) := by
  have hrti : regDest i ≠ some 6 → i ≠ .rti := fun h e => h (e ▸ rfl)
  obtain ⟨dr, v, hdr, -, -, ht⟩ | ⟨a, v, hnone, hreg, -, rfl⟩ | ⟨target, hnone, hreg, -, rfl⟩ |
    ⟨target, hnone, hreg, -, rfl⟩ | hpop := exec_next i s t hexec
  · exact .inl ⟨dr, v, hdr, ht⟩
  · exact .inr (.inl ⟨hnone, hrti (by rw [hreg]; decide), rfl⟩)
  · exact .inr (.inl ⟨hnone, hrti (by rw [hreg]; decide), rfl⟩)
  · exact .inr (.inl ⟨hnone, hrti (by rw [hreg]; decide), rfl⟩)
  · exact .inr (.inr hpop)

/-- The flag of a result write is the condition code of the register it wrote. -/
theorem getFlag_writeResult (dr : RegIdx) (v : Word) (s : State) :
    (writeResult dr v s).getFlag = .ok (cc ((writeResult dr v s).readReg dr)) :=
  getFlag_updateFlag _ _

theorem getLsbD_writeResult (dr : RegIdx) (v : Word) (s : State) {k : Nat} (hk : k < 16) (h3 : 3 ≤ k) :
    (writeResult dr v s).psw.getLsbD k = s.psw.getLsbD k := by
  rw [writeResult, State.updateFlag, getLsbD_setFlag _ _ hk, if_neg (Nat.not_lt.mpr h3), writeReg_psw]

/-- Settles O49: each of the three effects on the PSW belongs to one clause, by the flag destination and by RTI. -/
theorem flagUpdatersExactly : Obligations.FlagUpdatersExactly := by
  intro i s t hexec
  obtain ⟨dr, v, hdr, rfl⟩ | ⟨hnone, hne, hpsw⟩ | ⟨rfl, -, rfl⟩ := exec_next_psw hexec
  · refine ⟨fun r hr => ?_, fun hrti => ?_, fun hnone => ?_⟩
    · obtain rfl : dr = r := Option.some.inj (hdr.symm.trans hr)
      exact getFlag_writeResult dr v s
    · subst hrti
      cases hdr
    · cases hdr.symm.trans hnone
  · exact ⟨fun r hr => (by cases hnone.symm.trans hr), fun hrti => absurd hrti hne, fun _ _ => hpsw⟩
  · exact ⟨fun r hr => (nomatch hr), fun _ => rfl, fun _ hne => absurd rfl hne⟩

/-- Settles O50: a result write leaves the PSW above the flag, and the other instructions but RTI leave it all. -/
theorem onlyRtiWritesTheUpperPsw : Obligations.OnlyRtiWritesTheUpperPsw := by
  intro i s t hne hexec k hk h3
  obtain ⟨dr, v, -, rfl⟩ | ⟨-, -, hpsw⟩ | ⟨hrti, -, -⟩ := exec_next_psw hexec
  · exact getLsbD_writeResult dr v s hk h3
  · rw [hpsw]
  · exact absurd hrti hne

theorem flagDefined_of_psw_eq {s t : State} (h : t.psw = s.psw) (hs : FlagDefined s) : FlagDefined t := by
  obtain ⟨f, hf⟩ := hs
  exact ⟨f, by rw [State.getFlag, State.flagBits, h]; exact hf⟩

/-- Settles O51: a result write defines the flag, and the other instructions but RTI leave the PSW. -/
theorem flagStaysDefinedWithoutRti : Obligations.FlagStaysDefinedWithoutRti := by
  intro s t hs hne hstep
  obtain ⟨dr, v, -, rfl⟩ | ⟨-, -, hpsw⟩ | ⟨hrti, -, -⟩ := exec_next_psw (exec_decode_of_step hstep)
  · exact ⟨_, getFlag_writeResult dr v _⟩
  · exact flagDefined_of_psw_eq (hpsw.trans (setPc_psw s _)) hs
  · exact absurd hrti hne

/-! ## The mode -/

theorem exec_rti_user {s : State} (h : s.getMode = .user) : exec .rti s = .fault .illegalPrivilegeTransition := by
  rw [exec, execRti, h]
  rfl

theorem exec_rti_privileged {s : State} (h : s.getMode = .privileged) : exec .rti s = .next (popFrame s) := by
  rw [exec, execRti, h]
  rfl

/-- Settles O45: `psw[15]` = 1 is user mode. -/
theorem rtiFailsInUserMode : Obligations.RtiFailsInUserMode :=
  fun s h => exec_rti_user ((getMode_eq_user_iff s).mpr h)

/-- Settles O44: the encoding whatever its twelve ignored bits hold (D12), and the popped frame. -/
theorem rtiPopsTheFrame : Obligations.RtiPopsTheFrame :=
  fun ignored s => ⟨decode_rti_word ignored, fun h =>
    ⟨popFrame s, exec_rti_privileged ((getMode_eq_privileged_iff s).mpr h), popFrame_spec s⟩⟩

/-- The one instruction that writes the mode fails in user mode. -/
theorem inUserMode_exec {i : Instr} {s t : State} (hs : InUserMode s) (hexec : exec i s = .next t) : InUserMode t := by
  have hne : i ≠ .rti := by
    rintro rfl
    cases hexec.symm.trans (exec_rti_user hs)
  have hbit := onlyRtiWritesTheUpperPsw i s t hne hexec 15 (by decide) (by decide)
  exact (getMode_eq_user_iff t).mpr (hbit.trans ((getMode_eq_user_iff s).mp hs))

/-- Settles O53: the advance of the PC leaves the mode, and so does every instruction that succeeds in user mode. -/
theorem userModeIsNeverLeft : Obligations.UserModeIsNeverLeft :=
  fun s _ hs hstep => inUserMode_exec (s := s.setPc (s.pc + 1)) hs (exec_decode_of_step hstep)

/-! ## The other mode -/

section
variable (s : State) (f : CondCode)

theorem getLsbD_flipMode (k : Nat) : (flipMode s).psw.getLsbD k = (s.psw.getLsbD k ^^ (0x8000#16).getLsbD k) :=
  BitVec.getLsbD_xor

/-- The flag field lies below the mode bit. -/
theorem setFlag_flipMode : (flipMode s).setFlag f = flipMode (s.setFlag f) := by
  have hbits : ((flipMode s).setFlag f).psw = (flipMode (s.setFlag f)).psw := by
    refine BitVec.eq_of_getLsbD_eq fun k hk => ?_
    rw [getLsbD_setFlag _ f hk, getLsbD_flipMode, getLsbD_flipMode, getLsbD_setFlag s f hk]
    by_cases h3 : k < 3
    · have hmode : (0x8000#16).getLsbD k = false := by interval_cases k <;> rfl
      rw [if_pos h3, if_pos h3, hmode, Bool.xor_false]
    · rw [if_neg h3, if_neg h3]
  exact congrArg s.setPsw hbits

theorem getFlag_flipMode : (flipMode s).getFlag = s.getFlag := by
  have h : (flipMode s).flagBits = s.flagBits := by
    rw [State.flagBits, flipMode, setPsw_psw, BitVec.extractLsb'_xor]
    exact BitVec.xor_zero
  rw [State.getFlag, State.getFlag, h]

theorem branchTaken_flipMode (nzp : BitVec 3) : branchTaken nzp (flipMode s) = branchTaken nzp s := by
  rw [branchTaken, branchTaken, getFlag_flipMode]

theorem writeResult_flipMode (dr : RegIdx) (v : Word) :
    writeResult dr v (flipMode s) = flipMode (writeResult dr v s) :=
  setFlag_flipMode (s.writeReg dr v) _

end

/-- BR reads only the flag; the other handlers read no PSW, and a result write commutes with the flip. -/
theorem exec_flipMode {i : Instr} (hne : i ≠ .rti) (s : State) : exec i (flipMode s) = mapNext flipMode (exec i s) := by
  cases i with
  | br nzp off9 =>
    simp only [exec, execBr, branchTaken_flipMode]
    cases branchTaken nzp s with
    | ok taken => cases taken <;> rfl
    | error k => rfl
  | rti => exact absurd rfl hne
  | st | str | sti | jsr | jsrr | jmp | trap | reserved => rfl
  | _ => exact congrArg Host.Outcome.next (writeResult_flipMode s _ _)

/-- Settles O52: no handler but RTI's reads the mode, and the flag write leaves its bit. -/
theorem modeMattersOnlyToRti : Obligations.ModeMattersOnlyToRti :=
  fun _ s => ⟨fun hne => exec_flipMode hne s, fun h => ⟨_, exec_rti_privileged h⟩, exec_rti_user⟩

end Sys2Proof.Machine

/-! The branch, the errors and the failed step (42_control R170, R171; 43_system R191; 60_exceptions R200 to R206). -/

namespace Sys2Proof.Machine

/-! ## BR -/

section
variable {nzp : BitVec 3} (off9 : BitVec 9) {s : State}

theorem exec_br_of_taken (h : branchTaken nzp s = .ok true) :
    exec (.br nzp off9) s = .next (s.setPc (s.pc + sext 9 off9)) := by
  rw [exec, execBr, h]
  rfl

theorem exec_br_of_not_taken (h : branchTaken nzp s = .ok false) : exec (.br nzp off9) s = .next s := by
  rw [exec, execBr, h]
  rfl

theorem exec_br_of_error {k : Fault} (h : branchTaken nzp s = .error k) : exec (.br nzp off9) s = .fault k := by
  rw [exec, execBr, h]
  rfl

/-- With nzp = 000 the flag is not read (D13). -/
theorem exec_br_always (s : State) : exec (.br 0 off9) s = .next (s.setPc (s.pc + sext 9 off9)) :=
  exec_br_of_taken off9 (branchTaken_always s)

theorem branchTaken_undefined {k : Fault} (hn : nzp ≠ 0) (hf : s.getFlag = .error k) :
    branchTaken nzp s = .error k := by
  rw [branchTaken, if_neg hn, hf]

theorem exec_br_defined {f : CondCode} (hn : nzp ≠ 0) (hf : s.getFlag = .ok f) :
    exec (.br nzp off9) s = .next (s.setPc (if nzp &&& f.bits = 0 then s.pc else s.pc + sext 9 off9)) := by
  have htaken := branchTaken_defined nzp s f hn hf
  by_cases hz : nzp &&& f.bits = 0
  · rw [if_pos hz]
    exact exec_br_of_not_taken off9 (htaken.trans (congrArg Except.ok (decide_eq_false (not_not_intro hz))))
  · rw [if_neg hz]
    exact exec_br_of_taken off9 (htaken.trans (congrArg Except.ok (decide_eq_true hz)))

end

/-- Settles O38: the encoding, the branch that reads no flag, and the branch on a defined flag. -/
theorem brBranchesOnTheFlag : Obligations.BrBranchesOnTheFlag := by
  intro nzp off9 s
  refine ⟨decode_br_word nzp off9, fun hz => ?_, fun f hn hf => ?_⟩
  · subst hz
    exact ⟨_, exec_br_always off9 s, setPc_spec _ s⟩
  · exact ⟨_, exec_br_defined off9 hn hf, setPc_spec _ s⟩

theorem getFlag_undefined {s : State} (hp : s.flagBits ≠ 0b001) (hz : s.flagBits ≠ 0b010) (hn : s.flagBits ≠ 0b100) :
    s.getFlag = .error .statusWordDecode := by
  rw [State.getFlag, flagOfBits, if_neg hp, if_neg hz, if_neg hn]

/-- Settles O39: on the five other patterns `get_flag` fails, before the requested bits are looked at. -/
theorem brFailsOnAnUndefinedFlag : Obligations.BrFailsOnAnUndefinedFlag :=
  fun _ off9 _ hnzp hp hz hn => exec_br_of_error off9 (branchTaken_undefined hnzp (getFlag_undefined hp hz hn))

/-- Settles O24: the word 0x0000 is BR with nzp = 000 and offset 0. -/
theorem zeroWordIsNoOp : Obligations.ZeroWordIsNoOp := by
  intro s hw
  have hstep : step s = exec (.br 0 0) (s.setPc (s.pc + 1)) := stepRunsTheDecodedInstruction s _ (by rw [hw]; rfl)
  have htarget : s.pc + 1 + sext 9 0 = s.pc + 1 := BitVec.add_zero _
  refine ⟨s.setPc (s.pc + 1 + sext 9 0), hstep.trans (exec_br_always 0 _), ?_⟩
  rw [htarget]
  exact setPc_spec (s.pc + 1) s

/-! ## The errors -/

/-- Where a handler fails, and with which error. -/
theorem exec_fault {i : Instr} {s : State} {k : Fault} (h : exec i s = .fault k) :
    (k = .reservedOpcode ∧ i = .reserved) ∨
    (k = .illegalPrivilegeTransition ∧ i = .rti ∧ s.getMode = .user) ∨
    (k = .statusWordDecode ∧ s.getFlag = .error .statusWordDecode ∧ ∃ nzp off9, nzp ≠ 0 ∧ i = .br nzp off9) := by
  cases i with
  | br nzp off9 =>
    cases htaken : branchTaken nzp s with
    | error e =>
      obtain ⟨rfl, hn, hf⟩ := branchTaken_error nzp s e htaken
      cases h.symm.trans (exec_br_of_error off9 htaken)
      exact .inr (.inr ⟨rfl, hf, nzp, off9, hn, rfl⟩)
    | ok taken =>
      cases taken with
      | true => cases h.symm.trans (exec_br_of_taken off9 htaken)
      | false => cases h.symm.trans (exec_br_of_not_taken off9 htaken)
  | rti =>
    cases hmode : s.getMode with
    | user =>
      cases h.symm.trans (exec_rti_user hmode)
      exact .inr (.inl ⟨rfl, rfl, rfl⟩)
    | privileged => cases h.symm.trans (exec_rti_privileged hmode)
  | reserved =>
    cases h
    exact .inl ⟨rfl, rfl⟩
  | _ => cases h

/-- Settles O47: a failing handler is one of the three, and each of the three fails; no handler is refused. -/
theorem errorsExactly : Obligations.ErrorsExactly := by
  refine fun i s => ⟨fun k => ⟨exec_fault, ?_⟩, exec_ne_refused i s⟩
  rintro (⟨rfl, rfl⟩ | ⟨rfl, rfl, huser⟩ | ⟨rfl, hf, nzp, off9, hn, rfl⟩)
  · rfl
  · exact exec_rti_user huser
  · exact exec_br_of_error off9 (branchTaken_undefined hn hf)

/-! ## The failed step -/

theorem afterStep_next {s t : State} (h : step s = .next t) : afterStep s = t := by rw [afterStep, h]

theorem afterStep_fault {s : State} {k : Fault} (h : step s = .fault k) : afterStep s = s.setPc (s.pc + 1) := by
  rw [afterStep, h]
  rfl

/-- Settles O48: what a failed step leaves is the state the fetch left, the PC advanced. -/
theorem failedStepMovesOnlyThePc : Obligations.FailedStepMovesOnlyThePc := by
  intro s k hfault
  rw [afterStep_fault hfault]
  exact setPc_spec (s.pc + 1) s

/-- Settles O46: the encoding whatever its twelve ignored bits hold, the handler, and the failed step. -/
theorem reservedAlwaysFails : Obligations.ReservedAlwaysFails := by
  intro ignored s
  have hdecode := decode_reserved_word ignored
  refine ⟨hdecode, rfl, fun hw => ?_⟩
  have hstep : step s = .fault .reservedOpcode := stepRunsTheDecodedInstruction s .reserved (hw ▸ hdecode)
  exact ⟨hstep, failedStepMovesOnlyThePc s _ hstep⟩

/-! ## The store that the next fetch sees -/

/-- Settles O16: the first step stores SR at the word it left the PC at, and the second fetches that word. -/
theorem storeIsSeenByTheNextFetch : Obligations.StoreIsSeenByTheNextFetch := by
  intro s i sr hdecode haddr hsr
  have hstep : step s = .next ((s.setPc (s.pc + 1)).memWrite (s.pc + 1) (s.readReg sr)) :=
    (stepRunsTheDecodedInstruction s i hdecode).trans (exec_store i _ _ sr haddr hsr)
  refine ⟨_, hstep, rfl, ?_⟩
  rw [step_eq_exec_decode, memWrite_pc, setPc_pc, memRead_memWrite_same, BitVec.add_assoc]
  rfl

/-! ## The driving loop (70_reset R235, R236) -/

/-- Before a failure the host may step. -/
theorem hostAct_step {x : Session} (h : x.phase = .loading ∨ x.phase = .running) :
    hostAct .step x = .next (sessionStep x) := by
  obtain ⟨phase, block⟩ := x
  obtain rfl | rfl := h <;> rfl

theorem sessionStep_fault {x : Session} {k : Fault} (h : step x.block = .fault k) :
    sessionStep x = ⟨.failed k, afterStep x.block⟩ := by
  rw [sessionStep, h]

theorem sessionStep_next {x : Session} {t : State} (h : step x.block = .next t) : sessionStep x = ⟨.running, t⟩ := by
  rw [sessionStep, h, afterStep_next h]

/-- Settles O58: the failed step moves the loop to a phase in which only the abort is left, and the abort to one in
which nothing is. -/
theorem noStepAfterAFailure : Obligations.NoStepAfterAFailure := by
  intro x k hphase hfault
  refine ⟨⟨.failed k, afterStep x.block⟩, ⟨.aborted, afterStep x.block⟩, ?_, rfl, rfl, rfl, rfl, rfl, rfl⟩
  rw [hostAct_step hphase, sessionStep_fault hfault]

/-- Settles O59: the successful step leaves the loop running, where the host may step. -/
theorem successLeavesTheEngineReady : Obligations.SuccessLeavesTheEngineReady := by
  intro x t hphase hnext
  refine ⟨⟨.running, t⟩, ?_, rfl, _, hostAct_step (.inr rfl)⟩
  rw [hostAct_step hphase, sessionStep_next hnext]

end Sys2Proof.Machine

/-! The register port, the one flag bit, reset and the two STR offsets (10_state R31, R38, R40; 41_load_store R146). -/

namespace Sys2Proof.Machine

/-! ## One flag bit -/

/-- The place of a flag's bit in the flag field (D4). -/
def CondCode.place : CondCode → Nat
  | .positive => 0
  | .zero => 1
  | .negative => 2

theorem place_lt (f : CondCode) : f.place < 3 := by cases f <;> decide

theorem getLsbD_bits : ∀ (f : CondCode), ∀ j < 3, (f.bits.getLsbD j = true ↔ j = f.place)
  | .positive => by decide
  | .zero => by decide
  | .negative => by decide

theorem setFlag_oneBit (s : State) (f : CondCode) :
    ∃ k < 3, ∀ j < 3, ((s.setFlag f).psw.getLsbD j = true ↔ j = k) := by
  refine ⟨f.place, place_lt f, fun j hj => ?_⟩
  rw [getLsbD_setFlag s f (by omega), if_pos hj]
  exact getLsbD_bits f j hj

/-- Settles O7: `update_flag` is a `set_flag`, whose pattern has one bit. -/
theorem exactlyOneFlagBitAfterUpdate : Obligations.ExactlyOneFlagBitAfterUpdate := by
  rintro s t (⟨n, rfl⟩ | ⟨f, rfl⟩)
  · exact setFlag_oneBit s (cc (s.read n))
  · exact setFlag_oneBit s f

/-! ## The register port -/

section
variable {code : BitVec 4}

theorem regNameOfCode_gpr {i : RegIdx} (h : code.toNat = i.toNat) : regNameOfCode code = .ok (.gpr i) := by
  have hi : code.setWidth 3 = i := by
    apply BitVec.eq_of_toNat_eq
    rw [BitVec.toNat_setWidth, h, Nat.mod_eq_of_lt i.isLt]
  rw [regNameOfCode, if_pos (h ▸ i.isLt), hi]

theorem regNameOfCode_pc (h : code.toNat = 8) : regNameOfCode code = .ok .pc := by
  obtain rfl : code = 8 := BitVec.eq_of_toNat_eq h
  rfl

theorem regNameOfCode_psw (h : code.toNat = 9) : regNameOfCode code = .ok .psw := by
  obtain rfl : code = 9 := BitVec.eq_of_toNat_eq h
  rfl

theorem regNameOfCode_out (h : 10 ≤ code.toNat) : regNameOfCode code = .error .registerIndexOutOfRange := by
  have h8 : code ≠ 8 := by
    rintro rfl
    exact absurd h (by decide)
  have h9 : code ≠ 9 := by
    rintro rfl
    exact absurd h (by decide)
  rw [regNameOfCode, if_neg (by omega), if_neg h8, if_neg h9]

/-- The four operations on a code that names a slot. -/
theorem port_ok {n : RegName} (h : regNameOfCode code = .ok n) (v : Word) (s : State) :
    portRead code s = .ok (s.read n) ∧ portWrite code v s = .ok (s.write n v) ∧
      portReadThenIncrement code s = .ok (s.readThenIncrement n) ∧ portUpdateFlag code s = .ok (s.updateFlag n) := by
  rw [portRead, portWrite, portReadThenIncrement, portUpdateFlag, h]
  exact ⟨rfl, rfl, rfl, rfl⟩

/-- The four operations on a code that names none. -/
theorem port_error {k : Fault} (h : regNameOfCode code = .error k) (v : Word) (s : State) :
    portRead code s = .error k ∧ portWrite code v s = .error k ∧ portReadThenIncrement code s = .error k ∧
      portUpdateFlag code s = .error k := by
  rw [portRead, portWrite, portReadThenIncrement, portUpdateFlag, h]
  exact ⟨rfl, rfl, rfl, rfl⟩

end

/-- Settles O10: each operation looks the code up, and acts on the slot it names or fails as the lookup does. -/
theorem registerPortCodes : Obligations.RegisterPortCodes :=
  fun _ v s => ⟨fun _ h => port_ok (regNameOfCode_gpr h) v s, fun h => port_ok (regNameOfCode_pc h) v s,
    fun h => port_ok (regNameOfCode_psw h) v s, fun h => port_error (regNameOfCode_out h) v s⟩

/-! ## Reset -/

theorem read_reset (n : RegName) : State.reset.read n = 0 := by
  cases n with
  | gpr i => exact Vector.getElem_replicate ..
  | pc => rfl
  | psw => rfl

/-- Settles O11: every slot of reset holds zero, and the three fields are those of the zero PSW. -/
theorem resetSlotsAreZero : Obligations.ResetSlotsAreZero := ⟨read_reset, rfl, rfl, rfl⟩

/-! ## The two STR offsets -/

/-- Below bit 6 both readings are `off6`, and from there up the one repeats `off6`'s sign bit, while the other has
BaseR and then repeats its sign bit. -/
theorem sext_append_eq_sext_iff (base : BitVec 3) (off6 : BitVec 6) :
    sext 9 (base ++ off6) = sext 6 off6 ↔ ∀ k < 3, base.getLsbD k = off6.getLsbD 5 := by
  constructor
  · intro h k hk
    have hbit := congrArg (fun w => w.getLsbD (6 + k)) h
    simp only [getLsbD_sext _ (show 6 + k < 16 by omega), BitVec.getLsbD_append] at hbit
    rwa [if_pos (by omega), if_neg (by omega), if_neg (by omega), Nat.add_sub_cancel_left] at hbit
  · intro h
    refine BitVec.eq_of_getLsbD_eq fun k hk => ?_
    rw [getLsbD_sext _ hk, getLsbD_sext _ hk, BitVec.getLsbD_append, BitVec.getLsbD_append]
    by_cases h6 : k < 6
    · rw [if_pos (by omega), if_pos h6, if_pos h6]
    by_cases h9 : k < 9
    · rw [if_pos h9, if_neg h6, if_neg h6]
      exact h (k - 6) (by omega)
    · rw [if_neg h9, if_neg (by omega), if_neg h6]
      exact h 2 (by omega)

theorem threeCopies_iff : ∀ (b : Bool) (base : BitVec 3),
    (∀ k < 3, base.getLsbD k = b) ↔ base = if b then 0b111#3 else 0b000#3 := by
  decide

/-- Settles O34: the readings differ only in the three bits of BaseR, which must all be the sign bit of the other. -/
theorem strWidthsAgreeExactlyWhen : Obligations.StrWidthsAgreeExactlyWhen :=
  fun base off6 => (sext_append_eq_sext_iff base off6).trans (threeCopies_iff _ base)

end Sys2Proof.Machine

/-! The loader's contract (70_reset R231, R232, R233). -/

namespace Sys2Proof.Machine

/-! ## The words of a program, written one after the other -/

theorem writeWords_registers (a : Word) (ws : List Word) (s : State) :
    SameRegs s (writeWords a ws s) ∧ (writeWords a ws s).psw = s.psw := by
  induction ws generalizing a s with
  | nil => exact ⟨fun _ => rfl, rfl⟩
  | cons w ws ih => exact ih (a + 1) (s.memWrite a w)

theorem add_ofNat_succ (a : Word) (k : Nat) : a + BitVec.ofNat 16 (k + 1) = a + 1 + BitVec.ofNat 16 k := by
  rw [BitVec.ofNat_add, BitVec.add_comm (BitVec.ofNat 16 k), ← BitVec.add_assoc]
  rfl

/-- Places below 65536 words from an address on are distinct. -/
theorem ofNat_inj_of_add (a : Word) {j k : Nat} (hj : j < 65536) (hk : k < 65536)
    (h : a + BitVec.ofNat 16 j = a + BitVec.ofNat 16 k) : j = k := by
  have hnat := congrArg BitVec.toNat ((BitVec.add_right_inj a).mp h)
  rwa [BitVec.toNat_ofNat, BitVec.toNat_ofNat, Nat.mod_eq_of_lt hj, Nat.mod_eq_of_lt hk] at hnat

/-- A word at no place of the program is left. -/
theorem memRead_writeWords_ne {a b : Word} {ws : List Word} (s : State)
    (h : ∀ k < ws.length, b ≠ a + BitVec.ofNat 16 k) : (writeWords a ws s).memRead b = s.memRead b := by
  induction ws generalizing a s with
  | nil => rfl
  | cons w ws ih =>
    have hrest : ∀ k < ws.length, b ≠ a + 1 + BitVec.ofNat 16 k := fun k hk =>
      add_ofNat_succ a k ▸ h (k + 1) (Nat.succ_lt_succ hk)
    have hfirst : b ≠ a := by simpa using h 0 (Nat.succ_pos _)
    exact (ih (s.memWrite a w) hrest).trans (memRead_memWrite_ne s a b w hfirst)

/-- Below 65536 words no place is written twice, so each keeps its word. -/
theorem memRead_writeWords {a : Word} {ws : List Word} (s : State) (hlen : ws.length ≤ 65536) (k : Nat)
    (hk : k < ws.length) : (writeWords a ws s).memRead (a + BitVec.ofNat 16 k) = ws[k] := by
  induction ws generalizing a s k with
  | nil => exact absurd hk (Nat.not_lt_zero k)
  | cons w ws ih =>
    rw [List.length_cons] at hlen
    cases k with
    | zero =>
      have hlater : ∀ j < ws.length, a + BitVec.ofNat 16 0 ≠ a + 1 + BitVec.ofNat 16 j := by
        intro j hj hsame
        rw [← add_ofNat_succ] at hsame
        exact absurd (ofNat_inj_of_add a (by omega) (by omega) hsame) (Nat.succ_ne_zero j).symm
      rw [writeWords, memRead_writeWords_ne _ hlater]
      simp
    | succ k =>
      rw [add_ofNat_succ]
      exact ih (s.memWrite a w) (by omega) k (Nat.lt_of_succ_lt_succ hk)

/-- A program that fits stands at the addresses from its origin up. -/
theorem ne_place_of_outside {origin a : Word} {n k : Nat} (hfit : origin.toNat + n ≤ 65536) (hk : k < n)
    (ha : a.toNat < origin.toNat ∨ origin.toNat + n ≤ a.toNat) : a ≠ origin + BitVec.ofNat 16 k := by
  rintro rfl
  rw [BitVec.toNat_add, BitVec.toNat_ofNat] at ha
  omega

/-- Settles O57: the words written one after the other, the edge image left to `loadEdge`, and the boot without one. -/
theorem loaderWritesTheProgram : Obligations.LoaderWritesTheProgram := by
  intro origin ws s
  refine ⟨fun hfit => ?_, fun hover => ?_, _, rfl, setPc_spec Config.defaultBootPC s⟩
  · obtain ⟨hregs, hpsw⟩ := writeWords_registers origin ws s
    refine ⟨(writeWords origin ws s).setPc origin, if_pos hfit, rfl, hregs, hpsw, fun k hk => ?_, fun a ha => ?_⟩
    · exact memRead_writeWords s (by omega) k hk
    · exact memRead_writeWords_ne s fun k hk => ne_place_of_outside hfit hk ha
  · rw [loadProgram, if_neg (by omega)]
    exact loadEdge_spec _ s

/-! ## The image file -/

theorem imageWords_imageBytes (ws : List Word) : imageWords (imageBytes ws) = some ws := by
  induction ws with
  | nil => rfl
  | cons w ws ih =>
    have hword : w.extractLsb' 8 8 ++ w.extractLsb' 0 8 = w := BitVec.extractLsb'_append_extractLsb' (w := 8) (len := 8)
    have hcons : imageBytes (w :: ws) = w.extractLsb' 8 8 :: w.extractLsb' 0 8 :: imageBytes ws := rfl
    rw [hcons, imageWords, ih]
    exact congrArg (fun v => some (v :: ws)) hword

/-- An odd number of bytes is no words. -/
theorem imageWords_odd : ∀ bytes : List Byte, bytes.length % 2 = 1 → imageWords bytes = none
  | [], h => absurd h (by decide)
  | [_], _ => rfl
  | _ :: _ :: rest, h => by
    rw [List.length_cons, List.length_cons] at h
    rw [imageWords, imageWords_odd rest (by omega)]

/-- Settles O60: the bytes of words are read back as those words, and an odd or empty image goes to `loadEdge`. -/
theorem imageIsBigEndianWords : Obligations.ImageIsBigEndianWords := by
  refine fun s => ⟨fun origin ws => ?_, fun bytes hedge => ?_⟩
  · change loadImage (imageBytes (origin :: ws)) s = loadProgram origin ws s
    rw [loadImage, imageWords_imageBytes]
  · have hload : loadImage bytes s = loadEdge bytes s := by
      obtain hodd | rfl := hedge
      · rw [loadImage, imageWords_odd bytes hodd]
      · rfl
    rw [hload]
    exact loadEdge_spec bytes s

end Sys2Proof.Machine
